-- ==== Sys2Proof/Config.lean ====
section
/-! DEFINITION. What an implementation of the machine fixes: the number of memory cells
(spec/00_scope.md R4, spec/92_eei_decisions.md D4). -/

namespace Sys2Proof

/-- The one open parameter of the spec: `MEM_SIZE`, written N (00_scope.md R4). -/
structure Config where
  /-- N, the number of memory cells. -/
  memSize : Nat
  deriving DecidableEq, Repr

/-- The constraint of 00_scope.md R4: 1 <= N <= 253. -/
abbrev Config.wf (cfg : Config) : Prop := 1 ≤ cfg.memSize ∧ cfg.memSize ≤ 253

/-- The reference configuration, N = 64 (00_scope.md R4; DESIGN CHOICE, log entry 1: the fixed name
`step` runs this one; every definition that depends on N takes the configuration as an argument). -/
def Config.reference : Config := { memSize := 64 }

end Sys2Proof
end

