-- ==== Sys2Proof/Word.lean ====
section
/-! DEFINITION. The bit-vector types of the machine (spec/00_scope.md R6, R7, R8). -/

namespace Sys2Proof

/-- A memory cell, an opcode byte or an operand byte: `CELL_WIDTH` = 8 bits, unsigned
(00_scope.md R8, 30_encoding.md R84). -/
abbrev Byte := BitVec 8

/-- A general register: `REG_WIDTH` W = 8 bits, unsigned (00_scope.md R6, 10_state.md R26; the
spec's own decisions D1 and D2, log entry 8). -/
abbrev Word := BitVec 8

/-- The program counter: `PC_WIDTH` = 8 bits (00_scope.md R7; the spec's own decision D3, log entry 8). -/
abbrev Address := BitVec 8

end Sys2Proof
end

