-- ==== Sys2Proof/Syntax.lean ====
section
/-! DEFINITION. The instructions, one constructor per row of spec/opcode_table.json, and the fields
the decoder takes from an opcode byte (spec/30_encoding.md R81, R85, R89). -/

namespace Sys2Proof

/-- The instructions of the opcode map (30_encoding.md R85). A register operand is the register
INDEX the operand byte presents, a non-negative integer (10_state.md R23, R24): never masked or
reduced modulo 8 (30_encoding.md R84). -/
inductive Instr where
  /-- NO_OP, opcode 0x00 (41_system.md R121). -/
  | noOp
  /-- HALT, opcode 0x01 (41_system.md R120). -/
  | halt
  /-- PRINT rA, opcode 0x47: `a` is the source register index (42_move_output.md R131). -/
  | print (a : Nat)
  /-- LOAD_IMMEDIATE rA, v, opcode 0x82: `a` is the destination register index, `b` the immediate
  value (42_move_output.md R130). -/
  | loadImmediate (a : Nat) (b : Byte)
  /-- MULTIPLY rA, rB, opcode 0xA2: `a` is the destination and first source register index, `b` the
  second source register index (43_alu_multiply.md R145). -/
  | multiply (a : Nat) (b : Nat)
  deriving DecidableEq, Repr

/-- The decoder's `op` output (30_encoding.md R89). -/
inductive Operation where
  | noOp
  | halt
  | print
  | loadImmediate
  | multiply
  /-- Any of the 251 bytes that are not a reference bit pattern (30_encoding.md R86). -/
  | unknown
  deriving DecidableEq, Repr

/-- The decoder's outputs `(cnt, b5, opid, w, op)` for one opcode byte (30_encoding.md R81, R89). -/
structure DecodedOpcode where
  /-- Operand count, `opcode[7:6]`. -/
  cnt : BitVec 2
  /-- `opcode[5]`, no function of its own (30_encoding.md R81). -/
  b5 : BitVec 1
  /-- `opcode[4:0]`, no function of its own (30_encoding.md R81). -/
  opid : BitVec 5
  /-- Instruction width w (30_encoding.md R82). -/
  width : Nat
  /-- The operation selected by the whole byte (30_encoding.md R85). -/
  op : Operation
  deriving DecidableEq, Repr

/-- Why the decoder rejects a sequence of bytes. -/
inductive DecodeError where
  /-- There is no opcode byte. -/
  | noOpcode
  /-- The opcode byte is none of the five reference bit patterns (30_encoding.md R86). -/
  | unknownOpcode (opcode : Byte)
  /-- The bytes end before operand byte `k` (1 or 2) of a defined opcode (30_encoding.md R83). -/
  | missingOperand (k : Nat)
  deriving DecidableEq, Repr

end Sys2Proof
end

