-- ==== Sys2Proof/WellFormed.lean ====
section
/-! DEFINITION. Which instructions have an encoding: a register operand fits one operand byte
(spec/30_encoding.md R84). -/

namespace Sys2Proof

/-- An operand is one whole byte, 0..255 (30_encoding.md R84). An index of 8 or more IS well-formed:
such an instruction is encodable and raises `OutOfBounds` when it runs. -/
def fitsOperandByte (v : Nat) : Bool := decide (v < 256)

/-- Every operand of the instruction fits its operand byte. -/
def Instr.wellFormed : Instr → Bool
  | .noOp => true
  | .halt => true
  | .print a => fitsOperandByte a
  | .loadImmediate a _ => fitsOperandByte a
  | .multiply a b => fitsOperandByte a && fitsOperandByte b

end Sys2Proof
end

