-- ==== Sys2Proof/Decode.lean ====
section
/-! DEFINITION. The instruction decoder and the encoder (spec/30_encoding.md R80 to R89), and the
host's entry to the decoder. -/

namespace Sys2Proof

/-- The width formula, kept exactly: `((opcode >> 6) & 0b11) + 1` (30_encoding.md R82). -/
def opcodeWidth (opcode : Byte) : Nat := ((opcode >>> 6) &&& 0b11#8).toNat + 1

/-- Dispatch compares all eight bits with each reference bit pattern (30_encoding.md R85). -/
def decodeOperation (opcode : Byte) : Operation :=
  if opcode = 0b00000000#8 then .noOp
  else if opcode = 0b00000001#8 then .halt
  else if opcode = 0b01000111#8 then .print
  else if opcode = 0b10000010#8 then .loadImmediate
  else if opcode = 0b10100010#8 then .multiply
  else .unknown

/-- `Decode(opcode) = (cnt, b5, opid, w, op)`, total on all 256 bytes (30_encoding.md R89). -/
def decodeOpcode (opcode : Byte) : DecodedOpcode where
  cnt := opcode.extractLsb' 6 2
  b5 := opcode.extractLsb' 5 1
  opid := opcode.extractLsb' 0 5
  width := opcodeWidth opcode
  op := decodeOperation opcode

/-- One operand byte, the `k`-th, and the bytes after it. -/
def takeOperand (k : Nat) : List Byte → Except DecodeError (Byte × List Byte)
  | [] => .error (.missingOperand k)
  | b :: rest => .ok (b, rest)

/-- The decoder on bytes in ascending address order: opcode, `a`, `b` (30_encoding.md R83;
20_memory.md R56). It answers the instruction and the bytes after it. -/
def decode : List Byte → Except DecodeError (Instr × List Byte)
  | [] => .error .noOpcode
  | opcode :: rest =>
    match (decodeOpcode opcode).op with
    | .noOp => .ok (.noOp, rest)
    | .halt => .ok (.halt, rest)
    | .print => do
      let (a, rest) ← takeOperand 1 rest
      return (.print a.toNat, rest)
    | .loadImmediate => do
      let (a, rest) ← takeOperand 1 rest
      let (b, rest) ← takeOperand 2 rest
      return (.loadImmediate a.toNat b, rest)
    | .multiply => do
      let (a, rest) ← takeOperand 1 rest
      let (b, rest) ← takeOperand 2 rest
      return (.multiply a.toNat b.toNat, rest)
    | .unknown => .error (.unknownOpcode opcode)

/-- The reference bit pattern of an instruction (30_encoding.md R85). -/
def opcodeOf : Instr → Byte
  | .noOp => 0b00000000#8
  | .halt => 0b00000001#8
  | .print _ => 0b01000111#8
  | .loadImmediate _ _ => 0b10000010#8
  | .multiply _ _ => 0b10100010#8

/-- The instruction width w, taken from the opcode byte and not from a table of mnemonics
(30_encoding.md R82). -/
def instrWidth (i : Instr) : Nat := opcodeWidth (opcodeOf i)

/-- The operand byte of a register index. -/
def operandByte (index : Nat) : Byte := BitVec.ofNat 8 index

/-- The bytes of an instruction in ascending address order (30_encoding.md R83). -/
def encode (i : Instr) : List Byte :=
  opcodeOf i ::
    match i with
    | .noOp => []
    | .halt => []
    | .print a => [operandByte a]
    | .loadImmediate a b => [operandByte a, b]
    | .multiply a b => [operandByte a, operandByte b]

/-- The three bytes of a table word of `nbits` bits: byte `k` is bits `8k+7 .. 8k`, the first byte at
the lowest address, the bits at and above `nbits` zero (20_memory.md R56). -/
def tableBytes (nbits w : Nat) : List Byte :=
  let v := w % 2 ^ nbits
  [BitVec.ofNat 8 v, BitVec.ofNat 8 (v / 2 ^ 8), BitVec.ofNat 8 (v / 2 ^ 16)]

/-- What the decoder reads from a word of the opcode table. -/
def decodeTableWord (nbits w : Nat) : Option Instr :=
  match decode (tableBytes nbits w) with
  | .ok (i, _) => some i
  | .error _ => none

end Sys2Proof
end

