-- ==== Sys2Proof/Machine/State.lean ====
section
/-! DEFINITION. The state of the machine (spec/10_state.md R20), its reset value (R38), the fatal
errors (spec/60_exceptions.md R160) and the reasons a step can stop. -/

namespace Sys2Proof.Machine

/-- The ALU's operation tag (43_alu_multiply.md R143): the two implemented ones, and whatever else a
caller can present. DESIGN CHOICE (log entry 4): the other tags are told apart by a number. -/
inductive AluOp where
  | add
  | multiply
  | other (t : Nat)
  deriving DecidableEq, Repr

/-- The three fatal errors with their payloads (60_exceptions.md R160 to R164). -/
inductive FatalError where
  /-- `OutOfBounds(v)`: `v` is the address outside [0, N) or the register index outside [0, 8). -/
  | outOfBounds (v : Nat)
  /-- `UnsupportedOperation(tag)`: raised by the ALU only. -/
  | unsupportedOperation (tag : AluOp)
  /-- `UnknownInstruction(opcode, pc)`: the byte and the pc it was fetched at. -/
  | unknownInstruction (opcode : Byte) (pc : Address)
  deriving DecidableEq, Repr

/-- The running/halted flag (10_state.md R31). -/
inductive RunState where
  | running
  | halted
  deriving DecidableEq, Repr

/-- The eight general registers `reg[0]` to `reg[7]` (10_state.md R21; 00_scope.md R5). -/
abbrev RegFile := Vector Word 8

/-- Memory as the cells that differ from `unlistedCell`, addresses strictly rising (canonical form:
`Memory.wf` in Machine/Ops.lean). -/
abbrev Memory := List Host.Cell

/-- The complete state of the machine (10_state.md R20). -/
structure State where
  /-- `mem`, the N cells (10_state.md R36). -/
  mem : Memory
  /-- `reg[0..7]` (10_state.md R21). -/
  regs : RegFile
  /-- `pc`, the address of the next opcode byte (10_state.md R27). -/
  pc : Address
  /-- `run` (10_state.md R31). -/
  run : RunState
  /-- `fault`, the fault latch (10_state.md R32). -/
  fault : Option FatalError
  /-- `out`, the values handed to the output collaborator, oldest first (10_state.md R35). -/
  out : List Word
  deriving DecidableEq, Repr

/-- The state after reset (construction), before program load (10_state.md R38, 70_reset_and_hazards.md R190). -/
def State.reset : State where
  mem := []
  regs := Vector.replicate 8 0#8
  pc := 0#8
  run := .running
  fault := none
  out := []

/-- Why `step` performs no cycle (40_cycle.md R100: "both are resting states with no enabled step").
No instruction raises these: an instruction's fatal error is a NEXT state with `fault` latched. -/
inductive Fault where
  /-- Raised by `step` in a state with `run` = HALTED: the run has ended cleanly (40_cycle.md R108 a).
  Safe: the machine performs no cycle either. -/
  | halted
  /-- Raised by `step` in a state whose fault latch holds `e`: the run has crashed (40_cycle.md R108 b).
  Safe: the machine performs no cycle either. -/
  | crashed (e : FatalError)
  deriving DecidableEq, Repr

/-- Why an instruction has no meaning. No arm of `exec` answers this. -/
inductive Refusal where
  /-- Raised by an arm of `exec` for an instruction not modelled yet. Safe: nothing runs. -/
  | notModelled (mnemonic : String)
  deriving DecidableEq, Repr

end Sys2Proof.Machine
end

