-- ==== Sys2Proof/Machine/Ops.lean ====
section
/-! DEFINITION. The named operations over memory, registers, pc, output and fault latch: the
pseudocode primitives of spec/00_scope.md R11. -/

namespace Sys2Proof.Machine

/-- What a cell that `mem` does not list reads as: every cell is zero-initialised (10_state.md R36). -/
def unlistedCell : Byte := 0#8

/-- Canonical form: addresses strictly rising, no cell equal to what an unlisted one reads as. -/
abbrev Memory.wf (m : Memory) : Prop :=
  m.Pairwise (fun c d => c.1 < d.1) ∧ ∀ c ∈ m, c.2 ≠ unlistedCell

/-- Every listed cell exists: its address is in [0, N) (20_memory.md R50, R59). -/
abbrev Memory.inRange (cfg : Config) (m : Memory) : Prop := ∀ c ∈ m, c.1 < cfg.memSize

/-- `mem[a]`, the raw cell, no check (00_scope.md R11, 10_state.md R36). -/
def cell : Memory → Nat → Byte
  | [], _ => unlistedCell
  | (k, v) :: m, a => if a = k then v else cell m a

/-- `mem[a] <- v`, no check; keeps the canonical form. -/
def setCell : Memory → Nat → Byte → Memory
  | [], a, v => if v = unlistedCell then [] else [(a, v)]
  | (k, w) :: m, a, v =>
    if a < k then
      if v = unlistedCell then (k, w) :: m else (a, v) :: (k, w) :: m
    else if a = k then
      if v = unlistedCell then m else (a, v) :: m
    else (k, w) :: setCell m a v

/-- `mem[start + i] <- bytes[i]` for every `i`, no check. -/
def setCells : Memory → Nat → List Byte → Memory
  | m, _, [] => m
  | m, start, b :: bytes => setCells (setCell m start b) (start + 1) bytes

/-- The `k` raw cells from address `a` on, in ascending address order. -/
def cellsFrom (m : Memory) : Nat → Nat → List Byte
  | 0, _ => []
  | k + 1, a => cell m a :: cellsFrom m k (a + 1)

/-- `MemRead(addr, 1)`: checked, never clamped or wrapped (20_memory.md R51, R66). -/
def memRead (cfg : Config) (m : Memory) (addr : Nat) : Except FatalError Byte :=
  if addr < cfg.memSize then .ok (cell m addr) else .error (.outOfBounds addr)

/-- `MemWrite(addr, 1, v)`: checked; no instruction uses it (20_memory.md R52). -/
def memWrite (cfg : Config) (m : Memory) (addr : Nat) (v : Byte) : Except FatalError Memory :=
  if addr < cfg.memSize then .ok (setCell m addr v) else .error (.outOfBounds addr)

/-- `MemLoad(bytes, start)`: the check precedes every write, and a failed load writes no cell
(20_memory.md R53). -/
def memLoad (cfg : Config) (m : Memory) (bytes : List Byte) (start : Nat) : Except FatalError Memory :=
  if start + bytes.length > cfg.memSize then .error (.outOfBounds (max start cfg.memSize))
  else .ok (setCells m start bytes)

/-- `x[i]`: checked register read (10_state.md R23). -/
def readReg (regs : RegFile) (i : Nat) : Except FatalError Word :=
  if h : i < 8 then .ok regs[i] else .error (.outOfBounds i)

/-- `x[i] <- v`: checked register write, stores `v mod 2^W` (10_state.md R24). -/
def writeReg (regs : RegFile) (i v : Nat) : Except FatalError RegFile :=
  if h : i < 8 then .ok (regs.set i (BitVec.ofNat 8 v)) else .error (.outOfBounds i)

/-- `Emit(v)`: hands `v` to the output collaborator; cannot fail or block (10_state.md R35). -/
def emit (v : Word) (s : State) : State := { s with out := s.out ++ [v] }

/-- `pc <- pc + w`, the advance of a completed instruction (10_state.md R29, 40_cycle.md R104). The
register is 8 bits wide (00_scope.md R7); in a cycle the sum never exceeds N <= 253 (10_state.md R30;
DEDUCED, log entry 3). -/
def advance (w : Nat) (s : State) : State := { s with pc := s.pc + BitVec.ofNat 8 w }

/-- TAKING A FATAL ERROR, `raise E(info)`: the latch is set, every other component keeps the value it
had when the cycle began (60_exceptions.md R165). There is no handler and no return from it
(60_exceptions.md R168). -/
def takeError (e : FatalError) (s : State) : State := { s with fault := some e }

/-- The end of a cycle of instruction `i` begun in state `s`: a completed effect `s'` is followed by the
pc advance (40_cycle.md R104), a raised error is taken from `s`, the state before the cycle
(60_exceptions.md R165). -/
def finish (i : Instr) (s : State) : Except FatalError State → Host.Outcome State Fault Refusal
  | .ok s' => .next (advance (instrWidth i) s')
  | .error e => .next (takeError e s)

/-- Whether a cycle is performed: only if `run` = RUNNING and `fault` = None (40_cycle.md R100).
`none` where one is; otherwise the resting condition. Where both conditions hold, which no run reaches
(60_exceptions.md R169), the latched error is named (DESIGN CHOICE, log entry 2). -/
def restReason (s : State) : Option Fault :=
  match s.fault, s.run with
  | some e, _ => some (.crashed e)
  | none, .halted => some .halted
  | none, .running => none

end Sys2Proof.Machine
end

