-- ==== Sys2Proof/Machine/MoveOutput.lean ====
section
/-! DEFINITION. Register load and output (spec/42_move_output.md). -/

namespace Sys2Proof.Machine

/-- PRINT rA: `v <- x[a]; Emit(v)` (42_move_output.md R131). -/
def execPrint (a : Nat) (s : State) : Host.Outcome State Fault Refusal :=
  finish (.print a) s do
    let v ← readReg s.regs a
    return emit v s

/-- LOAD_IMMEDIATE rA, v: `x[a] <- b` (42_move_output.md R130). -/
def execLoadImmediate (a : Nat) (b : Byte) (s : State) : Host.Outcome State Fault Refusal :=
  finish (.loadImmediate a b) s do
    let regs ← writeReg s.regs a b.toNat
    return { s with regs := regs }

end Sys2Proof.Machine
end

