-- ==== Sys2Proof/Machine/Alu.lean ====
section
/-! DEFINITION. The Arithmetic/Logic Unit (spec/43_alu_multiply.md R140 to R147). -/

namespace Sys2Proof.Machine

/-- `f_ADD(p, q) = (p + q) mod 2^W`: the exact sum, reduced (43_alu_multiply.md R141, R144). -/
def aluAdd (p q : Word) : Nat := (p.toNat + q.toNat) % 2 ^ 8

/-- `f_MULTIPLY(p, q) = (p * q) mod 2^W`: the exact product, reduced (43_alu_multiply.md R142, R144). -/
def aluMultiply (p q : Word) : Nat := (p.toNat * q.toNat) % 2 ^ 8

/-- `f_op`, or the tag's rejection (43_alu_multiply.md R143). -/
def aluFunction : AluOp → Except FatalError (Word → Word → Nat)
  | .add => .ok aluAdd
  | .multiply => .ok aluMultiply
  | .other t => .error (.unsupportedOperation (.other t))

/-- `ALU(op, d, s)`: tag check, then `x[d]`, then `x[s]`, then `x[d] <- f_op`; it returns the value
written and the register file (43_alu_multiply.md R140, R146). A failure changes no register. -/
def aluApply (op : AluOp) (d s : Nat) (regs : RegFile) : Except FatalError (Word × RegFile) := do
  let f ← aluFunction op
  let p ← readReg regs d
  let q ← readReg regs s
  let regs ← writeReg regs d (f p q)
  return (BitVec.ofNat 8 (f p q), regs)

end Sys2Proof.Machine
end

