-- ==== Sys2Proof/Machine/Multiply.lean ====
section
/-! DEFINITION. The MULTIPLY instruction (spec/43_alu_multiply.md R145). -/

namespace Sys2Proof.Machine

/-- MULTIPLY rA, rB: `ALU(MULTIPLY, a, b)`; the engine ignores the returned value
(43_alu_multiply.md R145, R146). -/
def execMultiply (a b : Nat) (s : State) : Host.Outcome State Fault Refusal :=
  finish (.multiply a b) s do
    let (_, regs) ← aluApply .multiply a b s.regs
    return { s with regs := regs }

end Sys2Proof.Machine
end

