-- ==== Sys2Proof/Machine/System.lean ====
section
/-! DEFINITION. The system instructions (spec/41_system.md). -/

namespace Sys2Proof.Machine

/-- NO_OP: do nothing but advance pc (41_system.md R121). -/
def execNoOp (s : State) : Host.Outcome State Fault Refusal :=
  finish .noOp s (.ok s)

/-- HALT: `run <- HALTED`, and pc advances by 1 (41_system.md R120, 90_conflicts.md C3). -/
def execHalt (s : State) : Host.Outcome State Fault Refusal :=
  finish .halt s (.ok { s with run := .halted })

end Sys2Proof.Machine
end

