-- ==== Sys2Proof/Machine/Dispatch.lean ====
section
/-! DEFINITION. Step 3 of the cycle: dispatch and effect (spec/40_cycle.md R103), one arm per
instruction. -/

namespace Sys2Proof.Machine

def exec (i : Instr) (s : State) : Host.Outcome State Fault Refusal :=
  match i with
  | .noOp => Sys2Proof.Machine.execNoOp s
  | .halt => Sys2Proof.Machine.execHalt s
  | .print a => Sys2Proof.Machine.execPrint a s
  | .loadImmediate a b => Sys2Proof.Machine.execLoadImmediate a b s
  | .multiply a b => Sys2Proof.Machine.execMultiply a b s

end Sys2Proof.Machine
end

