-- ==== Sys2Proof/Machine/Operands.lean ====
section
/-! DEFINITION. Fetch, decode and the reading of operand bytes (spec/40_cycle.md R101 to R103,
spec/20_memory.md R54, spec/30_encoding.md R84). -/

namespace Sys2Proof.Machine

/-- Step 1, `opcode <- MemRead(pc, 1)` (40_cycle.md R101). -/
def fetchOpcode (cfg : Config) (s : State) : Except FatalError Byte := memRead cfg s.mem s.pc.toNat

/-- The first operand byte, `a <- MemRead(pc + 1, 1)`; the sum is an unbounded natural (00_scope.md R12). -/
def fetchOperandA (cfg : Config) (s : State) : Except FatalError Byte := memRead cfg s.mem (s.pc.toNat + 1)

/-- The second operand byte, `b <- MemRead(pc + 2, 1)`. -/
def fetchOperandB (cfg : Config) (s : State) : Except FatalError Byte := memRead cfg s.mem (s.pc.toNat + 2)

/-- A register operand: the whole byte as an index, never masked (30_encoding.md R84). -/
def registerIndex (operand : Byte) : Nat := operand.toNat

/-- The operand bytes of the selected operation, in ascending address order, before any register is
touched; an unknown opcode reads none and raises (40_cycle.md R103, 20_memory.md R54; DEDUCED, log entry 5). -/
def fetchOperands (cfg : Config) (s : State) (opcode : Byte) : Operation → Except FatalError Instr
  | .noOp => .ok .noOp
  | .halt => .ok .halt
  | .print => do
    let a ← fetchOperandA cfg s
    return .print (registerIndex a)
  | .loadImmediate => do
    let a ← fetchOperandA cfg s
    let b ← fetchOperandB cfg s
    return .loadImmediate (registerIndex a) b
  | .multiply => do
    let a ← fetchOperandA cfg s
    let b ← fetchOperandB cfg s
    return .multiply (registerIndex a) (registerIndex b)
  | .unknown => .error (.unknownInstruction opcode s.pc)

/-- Steps 1 and 2 of the cycle and the operand reads of step 3: the instruction at `pc`, or the first
error met (40_cycle.md R101 to R103, 60_exceptions.md R167 checks 1 to 4). -/
def fetch (cfg : Config) (s : State) : Except FatalError Instr := do
  let opcode ← fetchOpcode cfg s
  fetchOperands cfg s opcode (decodeOpcode opcode).op

end Sys2Proof.Machine
end

