-- ==== Sys2Proof/Machine/Step.lean ====
section
/-! DEFINITION. The cycle of the Execution Engine (spec/40_cycle.md R100 to R106). -/

namespace Sys2Proof.Machine

/-- One cycle in a machine of `cfg.memSize` cells: none in a resting state (40_cycle.md R100), else
fetch and decode, whose errors are taken at once (60_exceptions.md R165), then the effect and the
advance (40_cycle.md R103, R104). -/
def stepAt (cfg : Config) (s : State) : Host.Outcome State Fault Refusal :=
  match restReason s with
  | some r => .fault r
  | none =>
    match fetch cfg s with
    | .error e => .next (takeError e s)
    | .ok i => exec i s

/-- One cycle of the reference machine, N = 64 (00_scope.md R4; log entry 1). -/
def step (s : State) : Host.Outcome State Fault Refusal := stepAt Config.reference s

/-- `s` with the three bytes of a table word at `pc`, where the next cycle fetches; a byte whose cell
does not exist is dropped (DESIGN CHOICE, log entry 7). It stands for the host's program load
(70_reset_and_hazards.md R191; log entry 6). -/
def State.withFetchWord (s : State) (nbits w : Nat) : State :=
  { s with
    mem := setCells s.mem s.pc.toNat ((tableBytes nbits w).take (Config.reference.memSize - s.pc.toNat)) }

end Sys2Proof.Machine
end

