-- ==== Sys2Proof/Machine/HostInterface.lean ====
section
/-! DEFINITION. What the host does: program load before a run, and read-only observation
(spec/70_reset_and_hazards.md R191, R192, R198; spec/60_exceptions.md R177). -/

namespace Sys2Proof.Machine

/-- The launch state of a program in a machine of `cfg.memSize` cells: reset, then one
`MemLoad(program, 0)`; a failed load is the absence of a run, so its error goes to the host and is not
latched (70_reset_and_hazards.md R191, R192; DEDUCED, log entry 6). -/
def launch (cfg : Config) (program : List Byte) : Except FatalError State := do
  let mem ← memLoad cfg State.reset.mem program 0
  return { State.reset with mem := mem }

/-- What the trace collaborator sees between cycles (60_exceptions.md R177). -/
structure TraceView where
  pc : Address
  nextCells : List Byte
  regs : RegFile
  deriving DecidableEq, Repr

/-- The trace collaborator's query: pc, the next `k` cells and the register file. It is a function of
the state and changes nothing (60_exceptions.md R177). DESIGN CHOICE (log entry 9): the rule says "the
next few Memory cells" and no more, and the model lets the collaborator choose `k`, begins at the cell
pc points at, and leaves out the cells at and beyond N, which do not exist. -/
def traceView (cfg : Config) (k : Nat) (s : State) : TraceView where
  pc := s.pc
  nextCells := cellsFrom s.mem (min k (cfg.memSize - s.pc.toNat)) s.pc.toNat
  regs := s.regs

end Sys2Proof.Machine
end

