-- ==== Sys2Proof/Safety.lean ====
section
/-! DEFINITION. The terms that statements use: when a cycle is enabled, how a run goes on and ends
(spec/40_cycle.md R100, R105, R108), and the invariant of the machine. -/

namespace Sys2Proof.Machine

/-- A cycle is enabled: `run` = RUNNING and `fault` = None (40_cycle.md R100). -/
abbrev State.enabled (s : State) : Prop := s.run = .running ∧ s.fault = none

/-- A clean halt: `run` = HALTED, `fault` = None (40_cycle.md R108 a). -/
abbrev State.cleanHalt (s : State) : Prop := s.run = .halted ∧ s.fault = none

/-- A crash with error `e`: `run` = RUNNING, `fault` = e (40_cycle.md R108 b). -/
abbrev State.crashedWith (s : State) (e : FatalError) : Prop := s.run = .running ∧ s.fault = some e

/-- Cycles one after another, at most `k`, until none is enabled (40_cycle.md R105, R108). -/
def runFor (cfg : Config) : Nat → State → State
  | 0, s => s
  | k + 1, s =>
    match stepAt cfg s with
    | .next t => runFor cfg k t
    | .fault _ => s
    | .refused _ => s

/-- What a latched error says of the state it was raised in: an out-of-range address presented by the
engine is N, an out-of-range register index is an operand byte (60_exceptions.md R161); an unknown
instruction is at pc, inside memory, and no reference bit pattern (60_exceptions.md R163, 40_cycle.md
R110); the ALU's rejection never arises (60_exceptions.md R162). -/
def errorFits (cfg : Config) (s : State) : FatalError → Prop
  | .outOfBounds v => v = cfg.memSize ∨ (8 ≤ v ∧ v ≤ 255)
  | .unsupportedOperation _ => False
  | .unknownInstruction opcode p =>
    p = s.pc ∧ s.pc.toNat < cfg.memSize ∧ cell s.mem s.pc.toNat = opcode ∧ decodeOperation opcode = .unknown

/-- The invariant of the machine: memory is canonical and inside [0, N) (10_state.md R36, 20_memory.md
R59), pc is at most N (10_state.md R30), a halted machine has no error (60_exceptions.md R169), and a
latched error fits the state (`errorFits`). -/
structure Inv (cfg : Config) (s : State) : Prop where
  memCanonical : s.mem.wf
  memInRange : s.mem.inRange cfg
  pcInRange : s.pc.toNat ≤ cfg.memSize
  haltedIsClean : s.run = .halted → s.fault = none
  faultFits : ∀ e, s.fault = some e → errorFits cfg s e

end Sys2Proof.Machine
end

