-- ==== Sys2Proof/Certificates/Slice0/Obligations.lean ====
section
/-! DEFINITION. The statements for the provers. `N` below is `cfg.memSize`; a statement over
`stepAt cfg` is about every memory size, and `step` is `stepAt Config.reference` (log entry 1). Where a
docstring names a decision D<n> of spec/92_eei_decisions.md, the statement rests on that decision of the
spec and claims no more than the spec's own text does. -/

open Sys2Proof Sys2Proof.Machine

/-! ### Encoding and the decoder -/

/-- The encoder and the decoder agree: no bit of an encoding is dropped (30_encoding.md, sections 1 to 3). -/
def Obligations.DecodeInvertsEncode : Prop :=
  ∀ (i : Instr) (rest : List Byte), i.wellFormed = true → decode (encode i ++ rest) = .ok (i, rest)

/-- Whatever the decoder accepts is the encoding of a well-formed instruction, followed by the bytes it
hands back: each instruction has one encoding and reserved bytes are refused (30_encoding.md, sections 1 to 3). -/
def Obligations.EncodeInvertsDecode : Prop :=
  ∀ (bytes rest : List Byte) (i : Instr),
    decode bytes = .ok (i, rest) → i.wellFormed = true ∧ encode i ++ rest = bytes

/-- The words of the opcode map, written out bit by bit (30_encoding.md section 3; 95_test_vectors.md S7). -/
def Obligations.ReferenceBitPatternsDecode : Prop :=
  decode [0b00000000#8] = .ok (.noOp, []) ∧
  decode [0b00000001#8] = .ok (.halt, []) ∧
  decode [0b01000111#8, 0b00000000#8] = .ok (.print 0, []) ∧
  decode [0b10000010#8, 0b00000001#8, 0b00001001#8] = .ok (.loadImmediate 1 9, []) ∧
  decode [0b10100010#8, 0b00000000#8, 0b00000001#8] = .ok (.multiply 0 1, []) ∧
  decode [0b11111111#8, 0b00000000#8, 0b00000000#8] = .error (.unknownOpcode 0b11111111#8)

/-- The decoder's five outputs on every byte (30_encoding.md section 4). -/
def Obligations.DecoderOutputsOnEveryByte : Prop :=
  ∀ b : Byte,
    (decodeOpcode b).cnt.toNat = b.toNat / 64 ∧
    (decodeOpcode b).b5.toNat = b.toNat / 32 % 2 ∧
    (decodeOpcode b).opid.toNat = b.toNat % 32 ∧
    (decodeOpcode b).width = (decodeOpcode b).cnt.toNat + 1 ∧
    b.toNat = (decodeOpcode b).cnt.toNat * 64 + (decodeOpcode b).b5.toNat * 32 + (decodeOpcode b).opid.toNat ∧
    ((decodeOpcode b).op = .noOp ↔ b = 0x00#8) ∧
    ((decodeOpcode b).op = .halt ↔ b = 0x01#8) ∧
    ((decodeOpcode b).op = .print ↔ b = 0x47#8) ∧
    ((decodeOpcode b).op = .loadImmediate ↔ b = 0x82#8) ∧
    ((decodeOpcode b).op = .multiply ↔ b = 0xA2#8) ∧
    ((decodeOpcode b).op = .unknown ↔ b ∉ [0x00#8, 0x01#8, 0x47#8, 0x82#8, 0xA2#8])

/-- 30_encoding.md R82: the width formula, the five defined widths, the width 4 that is computed and
never used, and that the width is what pc advances by at the end of a completed instruction. -/
def Obligations.WidthFormulaAdvancesPc : Prop :=
  (∀ b : Byte, (decodeOpcode b).width = b.toNat / 64 + 1) ∧
  ((decodeOpcode 0x01#8).width = 1 ∧ (decodeOpcode 0x00#8).width = 1 ∧ (decodeOpcode 0x47#8).width = 2 ∧
    (decodeOpcode 0x82#8).width = 3 ∧ (decodeOpcode 0xA2#8).width = 3) ∧
  (∀ b : Byte, (decodeOpcode b).cnt = 3#2 → (decodeOpcode b).width = 4 ∧ (decodeOpcode b).op = .unknown) ∧
  (∀ (cfg : Config) (s t : State), stepAt cfg s = .next t → t.fault = none →
    t.pc = s.pc + BitVec.ofNat 8 (decodeOpcode (cell s.mem s.pc.toNat)).width) ∧
  (∀ (cfg : Config) (s t : State), stepAt cfg s = .next t →
    (decodeOpcode (cell s.mem s.pc.toNat)).op = .unknown → t.pc = s.pc)

/-! ### Reset and launch -/

/-- Every field of the reset state (10_state.md section 8). `fault` = None and an empty `out` are the
spec's own decision D21. -/
def Obligations.ResetStateTable : Prop :=
  (∀ (cfg : Config) (a : Nat), a < cfg.memSize → memRead cfg State.reset.mem a = .ok 0#8) ∧
  (∀ (i : Nat) (_ : i < 8), State.reset.regs[i] = 0#8) ∧
  State.reset.pc = 0#8 ∧ State.reset.run = .running ∧ State.reset.fault = none ∧ State.reset.out = []

/-- 10_state.md R22: every general register is zero at reset, and at any point of any run a register that
no completed LOAD_IMMEDIATE or MULTIPLY has had as its first operand still reads as 0, without an error. -/
def Obligations.RegistersReadZeroAtReset : Prop :=
  (∀ i : Nat, i < 8 → readReg State.reset.regs i = .ok 0#8) ∧
  (∀ (cfg : Config) (program : List Byte) (s : State) (k i : Nat), launch cfg program = .ok s → i < 8 →
    (∀ j, j < k → ∀ t, stepAt cfg (runFor cfg j s) = .next t → t.fault = none →
      ¬ ((memRead cfg (runFor cfg j s).mem (runFor cfg j s).pc.toNat = .ok 0x82#8 ∨
          memRead cfg (runFor cfg j s).mem (runFor cfg j s).pc.toNat = .ok 0xA2#8) ∧
        memRead cfg (runFor cfg j s).mem ((runFor cfg j s).pc.toNat + 1) = .ok (BitVec.ofNat 8 i))) →
    readReg (runFor cfg k s).regs i = .ok 0#8)

/-- 10_state.md R28: pc is 0 at reset, and the first opcode byte fetched after reset (and the program
load, which is all that comes between) is `mem[0]`. -/
def Obligations.FirstFetchIsCellZero : Prop :=
  State.reset.pc = 0#8 ∧
  (∀ cfg : Config, fetchOpcode cfg State.reset = memRead cfg State.reset.mem 0) ∧
  (∀ (cfg : Config) (program : List Byte) (t : State), launch cfg program = .ok t →
    t.pc = 0#8 ∧ fetchOpcode cfg t = memRead cfg t.mem 0)

/-- 70_reset_and_hazards.md R192: the launch state is the program followed by zeros, with every other
field as after reset. -/
def Obligations.LaunchStateIsProgramThenZeros : Prop :=
  ∀ (cfg : Config) (program : List Byte), program.length ≤ cfg.memSize →
    ∃ t, launch cfg program = .ok t ∧
      (∀ a : Nat, a < cfg.memSize → memRead cfg t.mem a = .ok (program.getD a 0#8)) ∧
      (∀ (i : Nat) (_ : i < 8), t.regs[i] = 0#8) ∧
      t.pc = 0#8 ∧ t.run = .running ∧ t.fault = none ∧ t.out = []

/-! ### Memory, registers, ALU -/

/-- 20_memory.md R51: the checked one-byte read, never clamped or wrapped. -/
def Obligations.MemReadIsChecked : Prop :=
  ∀ (cfg : Config) (m : Memory) (a : Nat),
    (a < cfg.memSize → memRead cfg m a = .ok (cell m a)) ∧
    (cfg.memSize ≤ a → memRead cfg m a = .error (.outOfBounds a))

/-- The checked one-byte write: read after write at the address, every other address as before, and
nothing written out of range (20_memory.md section 2, `MemWrite`; decision D20 on the port's width). -/
def Obligations.MemWriteChangesOneCell : Prop :=
  ∀ (cfg : Config) (m : Memory) (a : Nat) (v : Byte), m.wf →
    (a < cfg.memSize → ∃ m', memWrite cfg m a v = .ok m' ∧ memRead cfg m' a = .ok v ∧
      ∀ a', a' ≠ a → memRead cfg m' a' = memRead cfg m a') ∧
    (cfg.memSize ≤ a → memWrite cfg m a v = .error (.outOfBounds a))

/-- The bulk load: all of the bytes or, where they would exceed the capacity, none of them, with the
first out-of-range address as payload (20_memory.md section 2, `MemLoad`; decision D15). -/
def Obligations.MemLoadPlacesAllOrNothing : Prop :=
  ∀ (cfg : Config) (m : Memory) (bytes : List Byte) (start : Nat), m.wf →
    (start + bytes.length ≤ cfg.memSize → ∃ m', memLoad cfg m bytes start = .ok m' ∧
      (∀ (i : Nat) (_ : i < bytes.length), memRead cfg m' (start + i) = .ok bytes[i]) ∧
      (∀ a, a < start ∨ start + bytes.length ≤ a → memRead cfg m' a = memRead cfg m a)) ∧
    (cfg.memSize < start + bytes.length →
      memLoad cfg m bytes start = .error (.outOfBounds (max start cfg.memSize)))

/-- 10_state.md R23: the checked register read; the index is never masked, wrapped or clamped. -/
def Obligations.RegisterReadIsChecked : Prop :=
  ∀ (regs : RegFile) (i : Nat),
    (∀ _ : i < 8, readReg regs i = .ok regs[i]) ∧ (8 ≤ i → readReg regs i = .error (.outOfBounds i))

/-- The checked register write: the value modulo 2^8 at the index, every other register as before
(10_state.md section 2; decision D20 on values wider than a register). -/
def Obligations.RegisterWriteIsChecked : Prop :=
  ∀ (regs : RegFile) (i v : Nat),
    (i < 8 → ∃ regs' w, writeReg regs i v = .ok regs' ∧ readReg regs' i = .ok w ∧ w.toNat = v % 2 ^ 8 ∧
      ∀ j, j ≠ i → readReg regs' j = readReg regs j) ∧
    (8 ≤ i → writeReg regs i v = .error (.outOfBounds i))

/-- ADD and MULTIPLY on registers in range: the value modulo 256 is returned and written to the first
register alone (43_alu_multiply.md section 1; decisions D1, D11, D12). -/
def Obligations.AluAddsAndMultipliesModulo256 : Prop :=
  ∀ (regs : RegFile) (d s : Nat) (_ : d < 8) (_ : s < 8),
    (∃ r : Word, aluApply .add d s regs = .ok (r, regs.set d r) ∧
      r.toNat = (regs[d].toNat + regs[s].toNat) % 256) ∧
    (∃ r : Word, aluApply .multiply d s regs = .ok (r, regs.set d r) ∧
      r.toNat = (regs[d].toNat * regs[s].toNat) % 256)

/-- The order of the ALU's checks: tag, then the destination index, then the operand index
(43_alu_multiply.md section 1; decision D8). -/
def Obligations.AluChecksTagThenRegisters : Prop :=
  (∀ (t d s : Nat) (regs : RegFile),
    aluApply (.other t) d s regs = .error (.unsupportedOperation (.other t))) ∧
  (∀ (op : AluOp) (d s : Nat) (regs : RegFile), op = .add ∨ op = .multiply →
    (8 ≤ d → aluApply op d s regs = .error (.outOfBounds d)) ∧
    (d < 8 → 8 ≤ s → aluApply op d s regs = .error (.outOfBounds s)))

/-- 60_exceptions.md R162: the payload is the offending tag, only the tag check raises it, and no
program can cause it. -/
def Obligations.UnsupportedOperationIsUnreachable : Prop :=
  (∀ (op tag : AluOp) (d s : Nat) (regs : RegFile),
    aluApply op d s regs = .error (.unsupportedOperation tag) ↔ (tag = op ∧ op ≠ .add ∧ op ≠ .multiply)) ∧
  (∀ (cfg : Config) (s t : State) (tag : AluOp),
    stepAt cfg s = .next t → t.fault ≠ some (.unsupportedOperation tag))

/-! ### The instructions: results and completion -/

/-- NO_OP and HALT complete in every state (41_system.md; that HALT advances pc is 90_conflicts.md C3). -/
def Obligations.SystemInstructionsComplete : Prop :=
  ∀ s : State,
    exec .noOp s = .next { s with pc := s.pc + 1#8 } ∧
    exec .halt s = .next { s with run := .halted, pc := s.pc + 1#8 }

/-- PRINT completes on every register in range (42_move_output.md). -/
def Obligations.PrintCompletes : Prop :=
  ∀ (s : State) (a : Nat) (_ : a < 8),
    exec (.print a) s = .next { s with out := s.out ++ [s.regs[a]], pc := s.pc + 2#8 }

/-- LOAD_IMMEDIATE completes on every register in range and every value (42_move_output.md). -/
def Obligations.LoadImmediateCompletes : Prop :=
  ∀ (s : State) (a : Nat) (b : Byte) (_ : a < 8),
    exec (.loadImmediate a b) s = .next { s with regs := s.regs.set a b, pc := s.pc + 3#8 }

/-- MULTIPLY completes on any two registers in range, the same one twice included: the low 8 bits of
the product of the values before the write (43_alu_multiply.md section 1; decision D1). -/
def Obligations.MultiplyCompletes : Prop :=
  ∀ (s : State) (a b : Nat) (_ : a < 8) (_ : b < 8),
    ∃ r : Word, r.toNat = (s.regs[a].toNat * s.regs[b].toNat) % 256 ∧
      exec (.multiply a b) s = .next { s with regs := s.regs.set a r, pc := s.pc + 3#8 }

/-- A register index of 8 or more is never masked: the form takes OutOfBounds(index), for MULTIPLY the
first bad one, and nothing but the latch changes (60_exceptions.md; decisions D6, D8). -/
def Obligations.BadRegisterIndexIsTaken : Prop :=
  ∀ s : State,
    (∀ a, 8 ≤ a → exec (.print a) s = .next { s with fault := some (.outOfBounds a) }) ∧
    (∀ a b, 8 ≤ a → exec (.loadImmediate a b) s = .next { s with fault := some (.outOfBounds a) }) ∧
    (∀ a b, 8 ≤ a → exec (.multiply a b) s = .next { s with fault := some (.outOfBounds a) }) ∧
    (∀ a b, a < 8 → 8 ≤ b → exec (.multiply a b) s = .next { s with fault := some (.outOfBounds b) })

/-- The value of a product does not depend on the operand order; which register receives it does
(43_alu_multiply.md section 1; 95_test_vectors.md S4). -/
def Obligations.MultiplyValueCommutes : Prop :=
  ∀ (s : State) (a b : Nat) (_ : a < 8) (_ : b < 8),
    ∃ t u : State, exec (.multiply a b) s = .next t ∧ exec (.multiply b a) s = .next u ∧
      t.regs[a] = u.regs[b] ∧ (a ≠ b → t.regs[b] = s.regs[b] ∧ u.regs[a] = s.regs[a])

/-! ### The instructions: frames -/

/-- What LOAD_IMMEDIATE and MULTIPLY leave unchanged: every register but the one their first operand
names, every byte of memory, `run`, `out`, and the fault latch where the register indices are in range
(42_move_output.md; 43_alu_multiply.md; 60_exceptions.md section 2). -/
def Obligations.RegisterWritersFrame : Prop :=
  (∀ (s t : State) (a : Nat) (v : Byte), exec (.loadImmediate a v) s = .next t →
    (∀ j, j ≠ a → readReg t.regs j = readReg s.regs j) ∧
    (∀ (cfg : Config) (addr : Nat), memRead cfg t.mem addr = memRead cfg s.mem addr) ∧
    t.run = s.run ∧ t.out = s.out ∧ (a < 8 → t.fault = s.fault)) ∧
  (∀ (s t : State) (a b : Nat), exec (.multiply a b) s = .next t →
    (∀ j, j ≠ a → readReg t.regs j = readReg s.regs j) ∧
    (∀ (cfg : Config) (addr : Nat), memRead cfg t.mem addr = memRead cfg s.mem addr) ∧
    t.run = s.run ∧ t.out = s.out ∧ (a < 8 → b < 8 → t.fault = s.fault))

/-- What NO_OP, HALT and PRINT leave unchanged: every register and every byte of memory; HALT changes
only `run` beside pc, PRINT only `out` (and the fault latch where the index is out of range), NO_OP
nothing (41_system.md; 42_move_output.md). -/
def Obligations.NonWritersFrame : Prop :=
  (∀ s t : State, exec .noOp s = .next t →
    (∀ j, readReg t.regs j = readReg s.regs j) ∧
    (∀ (cfg : Config) (addr : Nat), memRead cfg t.mem addr = memRead cfg s.mem addr) ∧
    t.run = s.run ∧ t.out = s.out ∧ t.fault = s.fault) ∧
  (∀ s t : State, exec .halt s = .next t →
    (∀ j, readReg t.regs j = readReg s.regs j) ∧
    (∀ (cfg : Config) (addr : Nat), memRead cfg t.mem addr = memRead cfg s.mem addr) ∧
    t.out = s.out ∧ t.fault = s.fault) ∧
  (∀ (s t : State) (a : Nat), exec (.print a) s = .next t →
    (∀ j, readReg t.regs j = readReg s.regs j) ∧
    (∀ (cfg : Config) (addr : Nat), memRead cfg t.mem addr = memRead cfg s.mem addr) ∧
    t.run = s.run ∧ (a < 8 → t.fault = s.fault))

/-! ### The instructions: whole cycles -/

/-- 41_system.md R120: a HALT cycle, in the last cell too, advancing pc (90_conflicts.md C3); no further
cycle follows; and only a byte fetched at pc as an opcode halts the machine. -/
def Obligations.HaltCycleStopsTheMachine : Prop :=
  ∀ (cfg : Config) (s : State), s.enabled →
    (memRead cfg s.mem s.pc.toNat = .ok 0x01#8 →
      stepAt cfg s = .next { s with run := .halted, pc := s.pc + 1#8 } ∧
      stepAt cfg { s with run := .halted, pc := s.pc + 1#8 } = .fault .halted ∧
      (cfg.wf → (s.pc + 1#8).toNat = s.pc.toNat + 1)) ∧
    (∀ t, stepAt cfg s = .next t → t.run = .halted → memRead cfg s.mem s.pc.toNat = .ok 0x01#8)

/-- 41_system.md R121: a NO_OP cycle; in the last cell the next cycle raises OutOfBounds(N); and a
machine whose cells from pc on are all zero slides through them to pc = N and crashes there. -/
def Obligations.NoOpCyclesSlideToTheEnd : Prop :=
  ∀ (cfg : Config) (s : State), cfg.wf → s.enabled →
    (memRead cfg s.mem s.pc.toNat = .ok 0x00#8 →
      stepAt cfg s = .next { s with pc := s.pc + 1#8 } ∧
      (s.pc.toNat + 1 = cfg.memSize →
        stepAt cfg { s with pc := s.pc + 1#8 } =
          .next { s with pc := s.pc + 1#8, fault := some (.outOfBounds cfg.memSize) })) ∧
    (s.pc.toNat ≤ cfg.memSize →
      (∀ a, s.pc.toNat ≤ a → a < cfg.memSize → memRead cfg s.mem a = .ok 0x00#8) →
      runFor cfg (cfg.memSize - s.pc.toNat) s = { s with pc := BitVec.ofNat 8 cfg.memSize } ∧
      runFor cfg (cfg.memSize - s.pc.toNat + 1) s =
        { s with pc := BitVec.ofNat 8 cfg.memSize, fault := some (.outOfBounds cfg.memSize) })

/-- 42_move_output.md R131: a PRINT cycle with its exceptions in the order of the checks. -/
def Obligations.PrintCycle : Prop :=
  ∀ (cfg : Config) (s : State), s.enabled → memRead cfg s.mem s.pc.toNat = .ok 0x47#8 →
    let a := (cell s.mem (s.pc.toNat + 1)).toNat
    stepAt cfg s = .next (
      if cfg.memSize ≤ s.pc.toNat + 1 then { s with fault := some (.outOfBounds (s.pc.toNat + 1)) }
      else if h : a < 8 then { s with out := s.out ++ [s.regs[a]], pc := s.pc + 2#8 }
      else { s with fault := some (.outOfBounds a) })

/-- A LOAD_IMMEDIATE cycle with its exceptions in the order of the checks (42_move_output.md; the order
of the checks is decisions D7 and D8). -/
def Obligations.LoadImmediateCycle : Prop :=
  ∀ (cfg : Config) (s : State), s.enabled → memRead cfg s.mem s.pc.toNat = .ok 0x82#8 →
    let a := (cell s.mem (s.pc.toNat + 1)).toNat
    let b := cell s.mem (s.pc.toNat + 2)
    stepAt cfg s = .next (
      if cfg.memSize ≤ s.pc.toNat + 1 then { s with fault := some (.outOfBounds (s.pc.toNat + 1)) }
      else if cfg.memSize ≤ s.pc.toNat + 2 then { s with fault := some (.outOfBounds (s.pc.toNat + 2)) }
      else if h : a < 8 then { s with regs := s.regs.set a b, pc := s.pc + 3#8 }
      else { s with fault := some (.outOfBounds a) })

/-- A MULTIPLY cycle with its exceptions in the order of the checks (43_alu_multiply.md section 1; the
order of the checks is decisions D7 and D8, the width of the product D1). -/
def Obligations.MultiplyCycle : Prop :=
  ∀ (cfg : Config) (s : State), s.enabled → memRead cfg s.mem s.pc.toNat = .ok 0xA2#8 →
    let a := (cell s.mem (s.pc.toNat + 1)).toNat
    let b := (cell s.mem (s.pc.toNat + 2)).toNat
    stepAt cfg s = .next (
      if cfg.memSize ≤ s.pc.toNat + 1 then { s with fault := some (.outOfBounds (s.pc.toNat + 1)) }
      else if cfg.memSize ≤ s.pc.toNat + 2 then { s with fault := some (.outOfBounds (s.pc.toNat + 2)) }
      else if ha : a < 8 then
        if hb : b < 8 then
          { s with
            regs := s.regs.set a (BitVec.ofNat 8 (s.regs[a].toNat * s.regs[b].toNat))
            pc := s.pc + 3#8 }
        else { s with fault := some (.outOfBounds b) }
      else { s with fault := some (.outOfBounds a) })

/-- 30_encoding.md R86 and 60_exceptions.md R163: every other opcode byte is fatal wherever it is
fetched, the last cells of memory included (no operand byte is read), and the report holds the byte and
the pc, which is not advanced; `run` stays RUNNING and no further cycle follows. -/
def Obligations.UnknownOpcodesAreFatal : Prop :=
  ∀ (cfg : Config) (s : State) (opcode : Byte), s.enabled → memRead cfg s.mem s.pc.toNat = .ok opcode →
    opcode ∉ [0x00#8, 0x01#8, 0x47#8, 0x82#8, 0xA2#8] →
      stepAt cfg s = .next { s with fault := some (.unknownInstruction opcode s.pc) } ∧
      stepAt cfg { s with fault := some (.unknownInstruction opcode s.pc) } =
        .fault (.crashed (.unknownInstruction opcode s.pc))

/-- LOAD_IMMEDIATE followed immediately by PRINT of the same register emits the loaded value, unsigned,
for every register and value (95_test_vectors.md S3; 10_state.md section 2, decision D2). -/
def Obligations.LoadThenPrintEmitsTheValue : Prop :=
  ∀ (cfg : Config) (s : State) (r v : Byte), cfg.wf → s.enabled → r.toNat < 8 →
    s.pc.toNat + 5 ≤ cfg.memSize → cellsFrom s.mem 5 s.pc.toNat = [0x82#8, r, v, 0x47#8, r] →
      ∃ t u : State, stepAt cfg s = .next t ∧ stepAt cfg t = .next u ∧
        u.out = s.out ++ [v] ∧ readReg u.regs r.toNat = .ok v ∧ u.pc.toNat = s.pc.toNat + 5

/-! ### The cycle -/

/-- A cycle runs the decoded instruction: where the bytes from pc to the end of memory decode to `i`, the
cycle is `exec i`, with nothing around it (40_cycle.md section 1). -/
def Obligations.StepRunsDecodedInstruction : Prop :=
  ∀ (cfg : Config) (s : State) (i : Instr) (rest : List Byte), s.enabled →
    decode (cellsFrom s.mem (cfg.memSize - s.pc.toNat) s.pc.toNat) = .ok (i, rest) →
      i.wellFormed = true ∧ stepAt cfg s = exec i s

/-- Where the bytes from pc on do not decode, the cycle takes the error: an address out of range is
always N (20_memory.md section 3; decision D7). -/
def Obligations.StepTakesDecodeErrors : Prop :=
  ∀ (cfg : Config) (s : State) (e : DecodeError), s.enabled → s.pc.toNat ≤ cfg.memSize →
    decode (cellsFrom s.mem (cfg.memSize - s.pc.toNat) s.pc.toNat) = .error e →
      stepAt cfg s = .next { s with
        fault := some (match e with
          | .noOpcode => .outOfBounds cfg.memSize
          | .unknownOpcode opcode => .unknownInstruction opcode s.pc
          | .missingOperand _ => .outOfBounds cfg.memSize) }

/-- 40_cycle.md R101: the fetch reads the opcode byte at pc, and raises OutOfBounds(pc) where pc is not
in [0, N). -/
def Obligations.FetchIsCheckedAtPc : Prop :=
  ∀ (cfg : Config) (s : State), s.enabled →
    (s.pc.toNat < cfg.memSize → fetchOpcode cfg s = .ok (cell s.mem s.pc.toNat)) ∧
    (cfg.memSize ≤ s.pc.toNat →
      stepAt cfg s = .next { s with fault := some (.outOfBounds s.pc.toNat) })

/-- A cycle is performed if and only if `run` = RUNNING and `fault` = None, and it always ends in a next
state; in every other state `step` names the resting condition (40_cycle.md section 1; decision D5; the
name where both conditions hold is the model's choice, log entry 2). -/
def Obligations.CycleIffEnabled : Prop :=
  ∀ (cfg : Config) (s : State),
    (s.enabled → ∃ t, stepAt cfg s = .next t) ∧
    (∀ e, s.fault = some e → stepAt cfg s = .fault (.crashed e)) ∧
    (s.cleanHalt → stepAt cfg s = .fault .halted)

/-- Errors are precise: a raise changes nothing but the fault latch (60_exceptions.md section 2;
decisions D5 and D6). -/
def Obligations.RaiseChangesOnlyTheFaultLatch : Prop :=
  ∀ (cfg : Config) (s t : State) (e : FatalError),
    stepAt cfg s = .next t → t.fault = some e → t = { s with fault := some e }

/-- A completed cycle moves pc forward by the instruction's width, 1 to 3, without wrapping, to at most N
(10_state.md section 3; 40_cycle.md sections 1 and 2; decisions D3, D4, D9). -/
def Obligations.CompletedCycleStaysInMemory : Prop :=
  ∀ (cfg : Config) (s t : State), cfg.wf → stepAt cfg s = .next t → t.fault = none →
    ∃ opcode, memRead cfg s.mem s.pc.toNat = .ok opcode ∧
      t.pc.toNat = s.pc.toNat + opcodeWidth opcode ∧ t.pc.toNat ≤ cfg.memSize ∧
      1 ≤ opcodeWidth opcode ∧ opcodeWidth opcode ≤ 3

/-- No cycle, and so no number of cycles, changes memory (20_memory.md section 3). -/
def Obligations.MemoryIsConstant : Prop :=
  (∀ (cfg : Config) (s t : State), stepAt cfg s = .next t → t.mem = s.mem) ∧
  (∀ (cfg : Config) (k : Nat) (s : State), (runFor cfg k s).mem = s.mem)

/-- Only LOAD_IMMEDIATE and MULTIPLY write a register, and only the one their first operand byte names
(10_state.md section 2). -/
def Obligations.RegistersChangeOnlyByTheTwoWriters : Prop :=
  ∀ (cfg : Config) (s t : State) (j : Nat) (_ : j < 8),
    stepAt cfg s = .next t → t.regs[j] ≠ s.regs[j] →
      (memRead cfg s.mem s.pc.toNat = .ok 0x82#8 ∨ memRead cfg s.mem s.pc.toNat = .ok 0xA2#8) ∧
      memRead cfg s.mem (s.pc.toNat + 1) = .ok (BitVec.ofNat 8 j)

/-- 10_state.md R31: `run` is RUNNING at reset; only a HALT instruction changes it, to HALTED; a fatal
error does not; nothing sets it back; a cycle is performed only in RUNNING; and no instruction reads it
as data. -/
def Obligations.RunFlagChangesOnlyByHalt : Prop :=
  State.reset.run = .running ∧
  (∀ (cfg : Config) (s t : State), stepAt cfg s = .next t →
    s.run = .running ∧
    (t.run ≠ s.run → t.run = .halted ∧ memRead cfg s.mem s.pc.toNat = .ok 0x01#8) ∧
    (memRead cfg s.mem s.pc.toNat = .ok 0x01#8 → t.run = .halted) ∧
    (t.fault ≠ none → t.run = s.run)) ∧
  (∀ (i : Instr) (s t : State) (r : RunState), exec i s = .next t →
    exec i { s with run := r } = .next { t with run := if i = .halt then .halted else r })

/-- 10_state.md R35: `out` is empty at reset, and grows by the emitted value in a PRINT cycle and in no
other; emitting cannot fail. -/
def Obligations.OutputGrowsOnlyByPrint : Prop :=
  State.reset.out = [] ∧
  (∀ (v : Word) (s : State), (emit v s).out = s.out ++ [v]) ∧
  (∀ (cfg : Config) (s t : State), stepAt cfg s = .next t →
    (memRead cfg s.mem s.pc.toNat = .ok 0x47#8 → t.fault = none →
      ∃ a : Byte, memRead cfg s.mem (s.pc.toNat + 1) = .ok a ∧
        ∃ _ : a.toNat < 8, t.out = s.out ++ [s.regs[a.toNat]]) ∧
    (memRead cfg s.mem s.pc.toNat ≠ .ok 0x47#8 ∨ t.fault ≠ none → t.out = s.out))

/-- No instruction reads `out`: a cycle does the same whatever was emitted before it (10_state.md section 1). -/
def Obligations.OutputIsNeverRead : Prop :=
  ∀ (cfg : Config) (s t : State), stepAt cfg s = .next t →
    ∃ emitted, t.out = s.out ++ emitted ∧
      ∀ o, stepAt cfg { s with out := o } = .next { t with out := o ++ emitted }

/-- 60_exceptions.md R168: once the machine has crashed or halted no cycle runs, so nothing changes and
the latch is never overwritten. -/
def Obligations.RestingStatesStay : Prop :=
  ∀ (cfg : Config) (k : Nat) (s : State), ¬ s.enabled →
    runFor cfg k s = s ∧ ∀ t, stepAt cfg s ≠ .next t

/-- The trace collaborator sees pc, the register file and the next cells (60_exceptions.md section 4). That
the cells are `k` in number, begin at pc itself and leave out those at and beyond N is the model's choice,
log entry 9. -/
def Obligations.TraceViewShowsTheState : Prop :=
  ∀ (cfg : Config) (k : Nat) (s : State),
    (traceView cfg k s).pc = s.pc ∧ (traceView cfg k s).regs = s.regs ∧
    ∀ j : Nat, (traceView cfg k s).nextCells[j]? =
      if j < k ∧ s.pc.toNat + j < cfg.memSize then some (cell s.mem (s.pc.toNat + j)) else none

/-! ### The end of a run -/

/-- 40_cycle.md R108: a run that has ended has ended in exactly one of two ways; the clean halt happens
when and only when a HALT instruction completes, the crash when and only when a cycle raises. -/
def Obligations.RunEndsInHaltOrCrash : Prop :=
  (∀ (cfg : Config) (s t : State), stepAt cfg s = .next t →
    (t.cleanHalt ↔ memRead cfg s.mem s.pc.toNat = .ok 0x01#8) ∧
    ((∃ e, t.crashedWith e) ↔ t.fault ≠ none)) ∧
  (∀ (cfg : Config) (k : Nat) (s : State), s.enabled → ¬ (runFor cfg k s).enabled →
    ((runFor cfg k s).cleanHalt ∧ ¬ ∃ e, (runFor cfg k s).crashedWith e) ∨
    ((∃ e, (runFor cfg k s).crashedWith e) ∧ ¬ (runFor cfg k s).cleanHalt))

/-- 40_cycle.md R110: after a clean halt pc is the address after the HALT byte (90_conflicts.md C3); after a crash it is the
address of the instruction that raised, and an UnknownInstruction records that pc. -/
def Obligations.FinalPc : Prop :=
  ∀ (cfg : Config) (s t : State), cfg.wf → stepAt cfg s = .next t →
    (t.cleanHalt → memRead cfg s.mem s.pc.toNat = .ok 0x01#8 ∧ t.pc.toNat = s.pc.toNat + 1) ∧
    (∀ e, t.crashedWith e → t.pc = s.pc) ∧
    (∀ opcode p, t.crashedWith (.unknownInstruction opcode p) → p = t.pc)

/-- Every run ends: from pc at most N, after N - pc cycles the machine is at rest or the next cycle is a
raising one, OutOfBounds(N), so that at most N - pc cycles complete and at most one raises; after one
cycle more no cycle is enabled, and the host's own run of the reference machine then stops (40_cycle.md
section 3, a bound the spec derives from its other rules). -/
def Obligations.EveryRunEnds : Prop :=
  (∀ (cfg : Config) (s : State), cfg.wf → s.pc.toNat ≤ cfg.memSize →
    ((runFor cfg (cfg.memSize - s.pc.toNat) s).enabled →
      runFor cfg (cfg.memSize - s.pc.toNat + 1) s =
        { runFor cfg (cfg.memSize - s.pc.toNat) s with fault := some (.outOfBounds cfg.memSize) }) ∧
    ¬ (runFor cfg (cfg.memSize - s.pc.toNat + 1) s).enabled) ∧
  (∀ s : State, s.pc.toNat ≤ 64 → ∃ r, Host.Core.run Sys2Proof.core (64 - s.pc.toNat + 2) s = .fault r)

/-! ### The invariant -/

/-- Every cycle keeps the invariant, at every memory size and so for the reference machine's `step`:
memory canonical and inside [0, N), pc at most N, no error in a halted machine, and a latched error that
fits the state (10_state.md sections 3 and 6; 60_exceptions.md sections 1 and 2). -/
def Obligations.StepKeepsInvariant : Prop :=
  (∀ (cfg : Config) (s t : State), cfg.wf → Inv cfg s → stepAt cfg s = .next t → Inv cfg t) ∧
  (∀ s t : State, Inv Config.reference s → Sys2Proof.Machine.step s = .next t → Inv Config.reference t)

/-- The reset state meets the invariant at every memory size. -/
def Obligations.ResetHasInvariant : Prop :=
  ∀ cfg : Config, Inv cfg State.reset

/-- Every launch state meets the invariant (70_reset_and_hazards.md section 1). -/
def Obligations.LaunchHasInvariant : Prop :=
  ∀ (cfg : Config) (program : List Byte) (t : State), launch cfg program = .ok t → Inv cfg t

/-- The host's placing of a table word: the very next step runs exactly the instruction the decoder reads
from it (the model's own definition, log entries 6 and 7). -/
def Obligations.PlacedWordIsRun : Prop :=
  ∀ (s : State) (nbits w : Nat) (i : Instr), s.enabled → s.mem.wf → s.pc.toNat + 3 ≤ 64 →
    decodeTableWord nbits w = some i →
      Sys2Proof.Machine.step (s.withFetchWord nbits w) = exec i (s.withFetchWord nbits w)
end

