-- ==== Sys2Proof/Laws/CoreRun.lean ====
section
/-! SUPPORT. The host's run of a machine, one step at a time. -/

namespace Sys2Proof.Machine

theorem coreRun_of_next {M : Host.Core} {k : Nat} {s t : M.State} (h : M.step s = .next t) :
    M.run (k + 1) s = M.run k t := by
  simp only [Host.Core.run, h]

theorem coreRun_of_fault {M : Host.Core} {k : Nat} {s : M.State} {r : M.Fault} (h : M.step s = .fault r) :
    M.run (k + 1) s = .fault r := by
  simp only [Host.Core.run, h]

end Sys2Proof.Machine
end

