-- ==== Sys2Proof/Laws/Decode.lean ====
section
/-! SUPPORT. The decoder and the encoder: which byte selects which operation, widths, bytes of an
instruction. -/

namespace Sys2Proof

theorem decodeOperation_opcodeOf (i : Instr) : decodeOperation (opcodeOf i) ≠ .unknown := by
  cases i
  · decide
  · decide
  · show decodeOperation 0x47#8 ≠ .unknown; decide
  · show decodeOperation 0x82#8 ≠ .unknown; decide
  · show decodeOperation 0xA2#8 ≠ .unknown; decide

theorem decodeOperation_eq_noOp {b : Byte} (h : decodeOperation b = .noOp) : b = 0x00#8 := by
  revert h; revert b; decide

theorem decodeOperation_eq_halt {b : Byte} (h : decodeOperation b = .halt) : b = 0x01#8 := by
  revert h; revert b; decide

theorem decodeOperation_eq_print {b : Byte} (h : decodeOperation b = .print) : b = 0x47#8 := by
  revert h; revert b; decide

theorem decodeOperation_eq_loadImmediate {b : Byte} (h : decodeOperation b = .loadImmediate) : b = 0x82#8 := by
  revert h; revert b; decide

theorem decodeOperation_eq_multiply {b : Byte} (h : decodeOperation b = .multiply) : b = 0xA2#8 := by
  revert h; revert b; decide

@[simp] theorem decodeOpcode_op (b : Byte) : (decodeOpcode b).op = decodeOperation b := rfl
@[simp] theorem decodeOpcode_width (b : Byte) : (decodeOpcode b).width = opcodeWidth b := rfl

@[simp] theorem instrWidth_noOp : instrWidth .noOp = 1 := by decide
@[simp] theorem instrWidth_halt : instrWidth .halt = 1 := by decide
@[simp] theorem instrWidth_print (a : Nat) : instrWidth (.print a) = 2 := by
  show opcodeWidth 0x47#8 = 2
  decide
@[simp] theorem instrWidth_loadImmediate (a : Nat) (b : Byte) : instrWidth (.loadImmediate a b) = 3 := by
  show opcodeWidth 0x82#8 = 3
  decide
@[simp] theorem instrWidth_multiply (a b : Nat) : instrWidth (.multiply a b) = 3 := by
  show opcodeWidth 0xA2#8 = 3
  decide

theorem instrWidth_bounds (i : Instr) : 1 ≤ instrWidth i ∧ instrWidth i ≤ 3 := by
  cases i <;> simp

theorem fitsOperandByte_iff (v : Nat) : fitsOperandByte v = true ↔ v < 256 := by
  simp [fitsOperandByte]

theorem operandByte_toNat {v : Nat} (h : v < 256) : (operandByte v).toNat = v := by
  simp [operandByte, Nat.mod_eq_of_lt h]

@[simp] theorem operandByte_of_toNat (b : Byte) : operandByte b.toNat = b := by
  simp [operandByte]

end Sys2Proof
end

