-- ==== Sys2Proof/Laws/Memory.lean ====
section
/-! SUPPORT. Memory: read after write, the canonical form, and the range of listed cells, for every
memory operation. -/

namespace Sys2Proof.Machine

theorem cell_setCell_self (m : Memory) (a : Nat) (v : Byte) (h : m.wf) : cell (setCell m a v) a = v := by
  induction m with
  | nil => by_cases hv : v = unlistedCell <;> simp [setCell, cell, hv]
  | cons c m ih =>
    obtain ⟨k, w⟩ := c
    have hwf : Memory.wf m := ⟨h.1.of_cons, fun d hd => h.2 d (List.mem_cons_of_mem _ hd)⟩
    have hbelow : ∀ d ∈ m, k < d.1 := (List.pairwise_cons.mp h.1).1
    have hnone : ∀ (m : Memory), (∀ d ∈ m, a < d.1) → cell m a = unlistedCell := by
      intro m hm
      induction m with
      | nil => rfl
      | cons d m ihm =>
        have := hm d (List.mem_cons_self ..)
        simp only [cell]
        rw [if_neg (by omega)]
        exact ihm fun e he => hm e (List.mem_cons_of_mem _ he)
    unfold setCell
    split
    · rename_i hlt
      split
      · rename_i hv
        rw [hv]
        exact hnone _ fun d hd => by
          rcases List.mem_cons.mp hd with rfl | hd
          · exact hlt
          · exact Nat.lt_trans hlt (hbelow d hd)
      · simp [cell]
    · split
      · rename_i heq
        split
        · rename_i hv
          rw [hv]
          exact hnone _ fun d hd => heq ▸ hbelow d hd
        · simp [cell]
      · rename_i hne
        simp only [cell]
        rw [if_neg hne]
        exact ih hwf

theorem cell_setCell_other (m : Memory) (a a' : Nat) (v : Byte) (hne : a' ≠ a) :
    cell (setCell m a v) a' = cell m a' := by
  induction m with
  | nil => by_cases hv : v = unlistedCell <;> simp [setCell, cell, hv, hne]
  | cons c m ih =>
    obtain ⟨k, w⟩ := c
    unfold setCell
    split
    · split <;> simp [cell, hne]
    · split
      · rename_i heq
        subst heq
        split <;> simp [cell, hne]
      · simp only [cell, ih]

/-- A cell of the memory after a write was there before or is the written one. -/
theorem mem_setCell {m : Memory} {a : Nat} {v : Byte} {c : Host.Cell} (h : c ∈ setCell m a v) :
    c ∈ m ∨ (c = (a, v) ∧ v ≠ unlistedCell) := by
  induction m with
  | nil =>
    unfold setCell at h
    split at h <;> simp_all
  | cons d m ih =>
    obtain ⟨k, w⟩ := d
    unfold setCell at h
    split at h
    · split at h <;> simp_all
      tauto
    · split at h
      · split at h <;> simp_all
        tauto
      · rcases List.mem_cons.mp h with rfl | h
        · exact .inl (List.mem_cons_self ..)
        · exact (ih h).imp_left (List.mem_cons_of_mem _)

theorem setCell_wf {m : Memory} (a : Nat) (v : Byte) (h : m.wf) : (setCell m a v).wf := by
  refine ⟨?_, fun c hc => ?_⟩
  · induction m with
    | nil => unfold setCell; split <;> simp
    | cons c m ih =>
      obtain ⟨k, w⟩ := c
      obtain ⟨hbelow, hpair⟩ := List.pairwise_cons.mp h.1
      have hwf : Memory.wf m := ⟨hpair, fun d hd => h.2 d (List.mem_cons_of_mem _ hd)⟩
      unfold setCell
      split
      · rename_i hlt
        split
        · exact h.1
        · refine List.pairwise_cons.mpr ⟨fun d hd => ?_, h.1⟩
          rcases List.mem_cons.mp hd with rfl | hd
          · exact hlt
          · exact Nat.lt_trans hlt (hbelow d hd)
      · split
        · rename_i heq
          split
          · exact hpair
          · exact List.pairwise_cons.mpr ⟨fun d hd => heq ▸ hbelow d hd, hpair⟩
        · rename_i hge hne
          refine List.pairwise_cons.mpr ⟨fun d hd => ?_, ih hwf⟩
          rcases mem_setCell hd with hd | ⟨rfl, -⟩
          · exact hbelow d hd
          · show k < a
            omega
  · rcases mem_setCell hc with hc | ⟨rfl, hv⟩
    · exact h.2 c hc
    · exact hv

theorem setCell_inRange {cfg : Config} {m : Memory} {a : Nat} (v : Byte) (h : m.inRange cfg)
    (ha : a < cfg.memSize) : (setCell m a v).inRange cfg := fun c hc => by
  rcases mem_setCell hc with hc | ⟨rfl, -⟩
  · exact h c hc
  · exact ha

theorem setCells_wf {m : Memory} (start : Nat) (bytes : List Byte) (h : m.wf) : (setCells m start bytes).wf := by
  induction bytes generalizing m start with
  | nil => exact h
  | cons b bytes ih => exact ih _ (setCell_wf start b h)

theorem setCells_inRange {cfg : Config} {m : Memory} (start : Nat) (bytes : List Byte) (h : m.inRange cfg)
    (hfit : start + bytes.length ≤ cfg.memSize) : (setCells m start bytes).inRange cfg := by
  induction bytes generalizing m start with
  | nil => exact h
  | cons b bytes ih =>
    simp only [List.length_cons] at hfit
    exact ih _ (setCell_inRange b h (by omega)) (by omega)

theorem cell_setCells_outside (m : Memory) (start : Nat) (bytes : List Byte) (a : Nat)
    (h : a < start ∨ start + bytes.length ≤ a) : cell (setCells m start bytes) a = cell m a := by
  induction bytes generalizing m start with
  | nil => rfl
  | cons b bytes ih =>
    simp only [List.length_cons] at h
    rw [setCells, ih _ _ (by omega), cell_setCell_other _ _ _ _ (by omega)]

theorem cell_setCells_inside (m : Memory) (start : Nat) (bytes : List Byte) (h : m.wf) (i : Nat)
    (hi : i < bytes.length) : cell (setCells m start bytes) (start + i) = bytes[i] := by
  induction bytes generalizing m start i with
  | nil => simp at hi
  | cons b bytes ih =>
    cases i with
    | zero =>
      rw [setCells, cell_setCells_outside _ _ _ _ (by omega)]
      exact cell_setCell_self m start b h
    | succ i =>
      simp only [List.length_cons] at hi
      have := ih _ (start + 1) (setCell_wf start b h) i (by omega)
      simpa [setCells, Nat.add_assoc, Nat.add_comm 1 i] using this

theorem memRead_eq_ok_iff (cfg : Config) (m : Memory) (a : Nat) (v : Byte) :
    memRead cfg m a = .ok v ↔ a < cfg.memSize ∧ cell m a = v := by
  unfold memRead
  split <;> simp_all

theorem memRead_eq_error_iff (cfg : Config) (m : Memory) (a : Nat) (e : FatalError) :
    memRead cfg m a = .error e ↔ cfg.memSize ≤ a ∧ e = .outOfBounds a := by
  unfold memRead
  split
  · rename_i h
    exact ⟨nofun, fun h' => absurd h'.1 (by omega)⟩
  · rename_i h
    simp only [Except.error.injEq]
    exact ⟨fun h' => ⟨by omega, h'.symm⟩, fun h' => h'.2.symm⟩

/-- `MemWrite` keeps the canonical form and the range of the listed cells. -/
theorem memWrite_keeps {cfg : Config} {m m' : Memory} {a : Nat} {v : Byte} (h : memWrite cfg m a v = .ok m') :
    (m.wf → m'.wf) ∧ (m.inRange cfg → m'.inRange cfg) := by
  unfold memWrite at h
  split at h
  · cases h
    exact ⟨setCell_wf a v, fun hr => setCell_inRange v hr ‹_›⟩
  · cases h

/-- `MemLoad` keeps the canonical form and the range of the listed cells. -/
theorem memLoad_keeps {cfg : Config} {m m' : Memory} {bytes : List Byte} {start : Nat}
    (h : memLoad cfg m bytes start = .ok m') :
    (m.wf → m'.wf) ∧ (m.inRange cfg → m'.inRange cfg) := by
  unfold memLoad at h
  split at h
  · cases h
  · cases h
    exact ⟨setCells_wf start bytes, fun hr => setCells_inRange start bytes hr (by omega)⟩

theorem reset_mem_wf : State.reset.mem.wf ∧ ∀ cfg, State.reset.mem.inRange cfg :=
  ⟨⟨List.Pairwise.nil, nofun⟩, fun _ => nofun⟩

end Sys2Proof.Machine
end

