-- ==== Sys2Proof/Laws/PerInstr.lean ====
section
/-! SUPPORT. The families of statements proved for one instruction at a time (LAWS.json). -/

namespace Sys2Proof.Laws.EncodingShape

/-- The encoding is the opcode byte and as many operand bytes as the opcode's top two bits count
(30_encoding.md R80, R82, R83). -/
def Statement (i : Instr) : Prop :=
  (encode i).head? = some (opcodeOf i) ∧
    (encode i).length = 1 + (decodeOpcode (opcodeOf i)).cnt.toNat ∧
    (encode i).length = instrWidth i

theorem noOp : Statement .noOp := by unfold Statement; decide

theorem halt : Statement .halt := by unfold Statement; decide

theorem print (a : Nat) : Statement (.print a) :=
  ⟨rfl, by show 2 = 1 + (decodeOpcode 0x47#8).cnt.toNat; decide, (instrWidth_print a).symm⟩

theorem loadImmediate (a : Nat) (b : Byte) : Statement (.loadImmediate a b) :=
  ⟨rfl, by show 3 = 1 + (decodeOpcode 0x82#8).cnt.toNat; decide, (instrWidth_loadImmediate a b).symm⟩

theorem multiply (a b : Nat) : Statement (.multiply a b) :=
  ⟨rfl, by show 3 = 1 + (decodeOpcode 0xA2#8).cnt.toNat; decide, (instrWidth_multiply a b).symm⟩

end Sys2Proof.Laws.EncodingShape
end

