-- ==== Sys2Proof/Laws/Registers.lean ====
section
/-! SUPPORT. The register file and the ALU: when an access succeeds, and with what. -/

namespace Sys2Proof.Machine

theorem readReg_of_lt (regs : RegFile) {i : Nat} (h : i < 8) : readReg regs i = .ok regs[i] := by
  simp [readReg, h]

theorem readReg_of_ge (regs : RegFile) {i : Nat} (h : 8 ≤ i) : readReg regs i = .error (.outOfBounds i) := by
  simp [readReg, Nat.not_lt.mpr h]

theorem writeReg_of_lt (regs : RegFile) {i : Nat} (v : Nat) (h : i < 8) :
    writeReg regs i v = .ok (regs.set i (BitVec.ofNat 8 v)) := by
  simp [writeReg, h]

theorem writeReg_of_ge (regs : RegFile) {i : Nat} (v : Nat) (h : 8 ≤ i) :
    writeReg regs i v = .error (.outOfBounds i) := by
  simp [writeReg, Nat.not_lt.mpr h]

/-- A successful ALU call: an implemented tag, both indices in range, one register written. -/
theorem aluApply_of_lt {op : AluOp} {f : Word → Word → Nat} (regs : RegFile) {d s : Nat}
    (hop : aluFunction op = .ok f) (hd : d < 8) (hs : s < 8) :
    aluApply op d s regs =
      .ok (BitVec.ofNat 8 (f regs[d] regs[s]), regs.set d (BitVec.ofNat 8 (f regs[d] regs[s]))) := by
  simp only [aluApply, hop, readReg_of_lt regs hd, readReg_of_lt regs hs, writeReg_of_lt regs _ hd]
  rfl

theorem aluApply_bad_dest {op : AluOp} {f : Word → Word → Nat} (regs : RegFile) {d : Nat} (s : Nat)
    (hop : aluFunction op = .ok f) (hd : 8 ≤ d) : aluApply op d s regs = .error (.outOfBounds d) := by
  simp only [aluApply, hop, readReg_of_ge regs hd]
  rfl

theorem aluApply_bad_operand {op : AluOp} {f : Word → Word → Nat} (regs : RegFile) {d s : Nat}
    (hop : aluFunction op = .ok f) (hd : d < 8) (hs : 8 ≤ s) :
    aluApply op d s regs = .error (.outOfBounds s) := by
  simp only [aluApply, hop, readReg_of_lt regs hd, readReg_of_ge regs hs]
  rfl

/-- Reducing modulo 2^8 before narrowing to 8 bits changes nothing. -/
theorem ofNat_aluMultiply (p q : Word) : BitVec.ofNat 8 (aluMultiply p q) = BitVec.ofNat 8 (p.toNat * q.toNat) := by
  apply BitVec.eq_of_toNat_eq
  simp [aluMultiply]

theorem ofNat_aluAdd (p q : Word) : BitVec.ofNat 8 (aluAdd p q) = BitVec.ofNat 8 (p.toNat + q.toNat) := by
  apply BitVec.eq_of_toNat_eq
  simp [aluAdd]

end Sys2Proof.Machine
end

