-- ==== Sys2Proof/Laws/Run.lean ====
section
/-! SUPPORT. A run, taken apart at its last cycle: what `runFor` adds when it is given one cycle more. -/

namespace Sys2Proof.Machine

@[simp] theorem runFor_zero (cfg : Config) (s : State) : runFor cfg 0 s = s := rfl

/-- If the state reached performs a cycle, one cycle more leads to where that cycle ends. -/
theorem runFor_succ_of_next {cfg : Config} {k : Nat} {s t : State} (h : stepAt cfg (runFor cfg k s) = .next t) :
    runFor cfg (k + 1) s = t := by
  induction k generalizing s with
  | zero =>
    simp only [runFor_zero] at h
    simp only [runFor, h]
  | succ k ih =>
    rw [runFor]
    cases hs : stepAt cfg s with
    | next u => exact ih (by simpa only [runFor, hs] using h)
    | fault r => simp [runFor, hs] at h
    | refused r => simp [runFor, hs] at h

/-- If the state reached performs no cycle, one cycle more leads nowhere else. -/
theorem runFor_succ_of_resting {cfg : Config} {k : Nat} {s : State}
    (h : ∀ t, stepAt cfg (runFor cfg k s) ≠ .next t) : runFor cfg (k + 1) s = runFor cfg k s := by
  induction k generalizing s with
  | zero =>
    simp only [runFor_zero] at h
    cases hs : stepAt cfg s with
    | next u => exact absurd hs (h u)
    | fault r => simp only [runFor, hs]
    | refused r => simp only [runFor, hs]
  | succ k ih =>
    cases hs : stepAt cfg s with
    | next u =>
      have hrun : ∀ n, runFor cfg (n + 1) s = runFor cfg n u := fun n => by simp only [runFor, hs]
      rw [hrun, hrun]
      exact ih (by simpa only [hrun] using h)
    | fault r => simp only [runFor, hs]
    | refused r => simp only [runFor, hs]

end Sys2Proof.Machine
end

