-- ==== Sys2Proof/Laws/State.lean ====
section
/-! SUPPORT. The fields of State under each update: emit, advance, takeError. -/

namespace Sys2Proof.Machine

section Emit
variable (v : Word) (s : State)

@[simp] theorem emit_mem : (emit v s).mem = s.mem := rfl
@[simp] theorem emit_regs : (emit v s).regs = s.regs := rfl
@[simp] theorem emit_pc : (emit v s).pc = s.pc := rfl
@[simp] theorem emit_run : (emit v s).run = s.run := rfl
@[simp] theorem emit_fault : (emit v s).fault = s.fault := rfl
@[simp] theorem emit_out : (emit v s).out = s.out ++ [v] := rfl

end Emit

section Advance
variable (w : Nat) (s : State)

@[simp] theorem advance_mem : (advance w s).mem = s.mem := rfl
@[simp] theorem advance_regs : (advance w s).regs = s.regs := rfl
@[simp] theorem advance_pc : (advance w s).pc = s.pc + BitVec.ofNat 8 w := rfl
@[simp] theorem advance_run : (advance w s).run = s.run := rfl
@[simp] theorem advance_fault : (advance w s).fault = s.fault := rfl
@[simp] theorem advance_out : (advance w s).out = s.out := rfl

end Advance

section TakeError
variable (e : FatalError) (s : State)

@[simp] theorem takeError_mem : (takeError e s).mem = s.mem := rfl
@[simp] theorem takeError_regs : (takeError e s).regs = s.regs := rfl
@[simp] theorem takeError_pc : (takeError e s).pc = s.pc := rfl
@[simp] theorem takeError_run : (takeError e s).run = s.run := rfl
@[simp] theorem takeError_fault : (takeError e s).fault = some e := rfl
@[simp] theorem takeError_out : (takeError e s).out = s.out := rfl

end TakeError

/-- A cycle is performed exactly when `run` = RUNNING and `fault` = None. -/
theorem restReason_eq_none_iff (s : State) : restReason s = none ↔ s.run = .running ∧ s.fault = none := by
  unfold restReason
  cases s.fault <;> cases s.run <;> simp

end Sys2Proof.Machine
end

