-- ==== Sys2Proof/Laws/Step.lean ====
section
/-! SUPPORT. Everything an instruction, a fetch and a cycle can do, said once. -/

namespace Sys2Proof.Machine

/-- What an instruction that has been fetched can do: its effect and the advance, or an out-of-range
register index taken as an error. -/
inductive ExecCase (s : State) : Instr → State → Prop where
  | noOp : ExecCase s .noOp (advance 1 s)
  | halt : ExecCase s .halt (advance 1 { s with run := .halted })
  | print (a : Nat) (h : a < 8) : ExecCase s (.print a) (advance 2 (emit s.regs[a] s))
  | printBad (a : Nat) (h : 8 ≤ a) : ExecCase s (.print a) (takeError (.outOfBounds a) s)
  | load (a : Nat) (b : Byte) (h : a < 8) :
      ExecCase s (.loadImmediate a b) (advance 3 { s with regs := s.regs.set a b })
  | loadBad (a : Nat) (b : Byte) (h : 8 ≤ a) : ExecCase s (.loadImmediate a b) (takeError (.outOfBounds a) s)
  | mul (a b : Nat) (ha : a < 8) (hb : b < 8) :
      ExecCase s (.multiply a b)
        (advance 3 { s with regs := s.regs.set a (BitVec.ofNat 8 (s.regs[a].toNat * s.regs[b].toNat)) })
  | mulBadA (a b : Nat) (ha : 8 ≤ a) : ExecCase s (.multiply a b) (takeError (.outOfBounds a) s)
  | mulBadB (a b : Nat) (ha : a < 8) (hb : 8 ≤ b) : ExecCase s (.multiply a b) (takeError (.outOfBounds b) s)

/-- Every instruction answers a next state, and it is one of the cases. -/
theorem exec_eq (i : Instr) (s : State) : ∃ t, exec i s = .next t ∧ ExecCase s i t := by
  cases i with
  | noOp => exact ⟨_, rfl, .noOp⟩
  | halt => exact ⟨_, rfl, .halt⟩
  | print a =>
    by_cases h : a < 8
    · refine ⟨_, ?_, .print a h⟩
      simp only [exec, execPrint, readReg_of_lt s.regs h]
      show Host.Outcome.next (advance (instrWidth (.print a)) _) = _
      rw [instrWidth_print]
    · refine ⟨_, ?_, .printBad a (by omega)⟩
      simp only [exec, execPrint, readReg_of_ge s.regs (Nat.not_lt.mp h)]
      rfl
  | loadImmediate a b =>
    by_cases h : a < 8
    · refine ⟨_, ?_, .load a b h⟩
      simp only [exec, execLoadImmediate, writeReg_of_lt s.regs _ h, BitVec.ofNat_toNat, BitVec.setWidth_eq]
      show Host.Outcome.next (advance (instrWidth (.loadImmediate a b)) _) = _
      rw [instrWidth_loadImmediate]
    · refine ⟨_, ?_, .loadBad a b (by omega)⟩
      simp only [exec, execLoadImmediate, writeReg_of_ge s.regs _ (Nat.not_lt.mp h)]
      rfl
  | multiply a b =>
    have hop : aluFunction .multiply = .ok aluMultiply := rfl
    by_cases ha : a < 8
    · by_cases hb : b < 8
      · refine ⟨_, ?_, .mul a b ha hb⟩
        simp only [exec, execMultiply, aluApply_of_lt s.regs hop ha hb, ofNat_aluMultiply]
        show Host.Outcome.next (advance (instrWidth (.multiply a b)) _) = _
        rw [instrWidth_multiply]
      · refine ⟨_, ?_, .mulBadB a b ha (by omega)⟩
        simp only [exec, execMultiply, aluApply_bad_operand s.regs hop ha (Nat.not_lt.mp hb)]
        rfl
    · refine ⟨_, ?_, .mulBadA a b (by omega)⟩
      simp only [exec, execMultiply, aluApply_bad_dest s.regs b hop (Nat.not_lt.mp ha)]
      rfl

theorem exec_cases {i : Instr} {s t : State} (h : exec i s = .next t) : ExecCase s i t := by
  obtain ⟨t', h', hc⟩ := exec_eq i s
  rw [h] at h'
  cases h'
  exact hc

/-- What a failed fetch reports, in the order of the checks. -/
inductive FetchError (cfg : Config) (s : State) : FatalError → Prop where
  | opcode (h : cfg.memSize ≤ s.pc.toNat) : FetchError cfg s (.outOfBounds s.pc.toNat)
  | unknown (h : s.pc.toNat < cfg.memSize) (hop : decodeOperation (cell s.mem s.pc.toNat) = .unknown) :
      FetchError cfg s (.unknownInstruction (cell s.mem s.pc.toNat) s.pc)
  | operandA (h : s.pc.toNat < cfg.memSize) (h1 : cfg.memSize ≤ s.pc.toNat + 1)
      (hop : 2 ≤ opcodeWidth (cell s.mem s.pc.toNat)) (hdef : decodeOperation (cell s.mem s.pc.toNat) ≠ .unknown) :
      FetchError cfg s (.outOfBounds (s.pc.toNat + 1))
  | operandB (h : s.pc.toNat + 1 < cfg.memSize) (h2 : cfg.memSize ≤ s.pc.toNat + 2)
      (hop : 3 ≤ opcodeWidth (cell s.mem s.pc.toNat)) (hdef : decodeOperation (cell s.mem s.pc.toNat) ≠ .unknown) :
      FetchError cfg s (.outOfBounds (s.pc.toNat + 2))

/-- What a successful fetch answers: the instruction whose bytes stand at pc, all of them inside memory. -/
structure Fetched (cfg : Config) (s : State) (i : Instr) : Prop where
  fits : s.pc.toNat + instrWidth i ≤ cfg.memSize
  wellFormed : i.wellFormed = true
  bytes : cellsFrom s.mem (instrWidth i) s.pc.toNat = encode i

/-- One spec lemma for the fetch: it answers an instruction or reports the first failed check. -/
theorem fetch_cases (cfg : Config) (s : State) :
    (∃ i, fetch cfg s = .ok i ∧ Fetched cfg s i) ∨ (∃ e, fetch cfg s = .error e ∧ FetchError cfg s e) := by
  by_cases h0 : s.pc.toNat < cfg.memSize
  case neg =>
    refine .inr ⟨_, ?_, .opcode (by omega)⟩
    simp only [fetch, fetchOpcode, memRead, if_neg h0]
    rfl
  have hfetch : fetch cfg s = fetchOperands cfg s (cell s.mem s.pc.toNat)
      (decodeOperation (cell s.mem s.pc.toNat)) := by
    simp only [fetch, fetchOpcode, memRead, if_pos h0]
    rfl
  rw [hfetch]
  have fits8 : ∀ b : Byte, fitsOperandByte b.toNat = true := fun b => (fitsOperandByte_iff _).mpr b.isLt
  cases hop : decodeOperation (cell s.mem s.pc.toNat) with
  | noOp =>
    exact .inl ⟨.noOp, rfl, by simpa using h0, rfl, by simp [cellsFrom, encode, opcodeOf, decodeOperation_eq_noOp hop]⟩
  | halt =>
    exact .inl ⟨.halt, rfl, by simpa using h0, rfl, by simp [cellsFrom, encode, opcodeOf, decodeOperation_eq_halt hop]⟩
  | unknown => exact .inr ⟨_, rfl, .unknown h0 hop⟩
  | print =>
    have hb := decodeOperation_eq_print hop
    by_cases h1 : s.pc.toNat + 1 < cfg.memSize
    · refine .inl ⟨.print (cell s.mem (s.pc.toNat + 1)).toNat, ?_, ?_⟩
      · simp only [fetchOperands, fetchOperandA, memRead, if_pos h1]
        rfl
      · exact ⟨by rw [instrWidth_print]; omega, fits8 _, by simp [cellsFrom, encode, opcodeOf, hb]⟩
    · refine .inr ⟨_, ?_, .operandA h0 (by omega) (by rw [hb]; decide) (by rw [hop]; decide)⟩
      simp only [fetchOperands, fetchOperandA, memRead, if_neg h1]
      rfl
  | loadImmediate =>
    have hb := decodeOperation_eq_loadImmediate hop
    by_cases h1 : s.pc.toNat + 1 < cfg.memSize
    · by_cases h2 : s.pc.toNat + 2 < cfg.memSize
      · refine .inl ⟨.loadImmediate (cell s.mem (s.pc.toNat + 1)).toNat (cell s.mem (s.pc.toNat + 2)), ?_, ?_⟩
        · simp only [fetchOperands, fetchOperandA, fetchOperandB, memRead, if_pos h1, if_pos h2]
          rfl
        · exact ⟨by rw [instrWidth_loadImmediate]; omega, fits8 _, by simp [cellsFrom, encode, opcodeOf, hb]⟩
      · refine .inr ⟨_, ?_, .operandB h1 (by omega) (by rw [hb]; decide) (by rw [hop]; decide)⟩
        simp only [fetchOperands, fetchOperandA, fetchOperandB, memRead, if_pos h1, if_neg h2]
        rfl
    · refine .inr ⟨_, ?_, .operandA h0 (by omega) (by rw [hb]; decide) (by rw [hop]; decide)⟩
      simp only [fetchOperands, fetchOperandA, memRead, if_neg h1]
      rfl
  | multiply =>
    have hb := decodeOperation_eq_multiply hop
    by_cases h1 : s.pc.toNat + 1 < cfg.memSize
    · by_cases h2 : s.pc.toNat + 2 < cfg.memSize
      · refine .inl
          ⟨.multiply (cell s.mem (s.pc.toNat + 1)).toNat (cell s.mem (s.pc.toNat + 2)).toNat, ?_, ?_⟩
        · simp only [fetchOperands, fetchOperandA, fetchOperandB, memRead, if_pos h1, if_pos h2]
          rfl
        · refine ⟨by rw [instrWidth_multiply]; omega, ?_, by simp [cellsFrom, encode, opcodeOf, hb]⟩
          simp only [Instr.wellFormed, fits8, Bool.and_self]
      · refine .inr ⟨_, ?_, .operandB h1 (by omega) (by rw [hb]; decide) (by rw [hop]; decide)⟩
        simp only [fetchOperands, fetchOperandA, fetchOperandB, memRead, if_pos h1, if_neg h2]
        rfl
    · refine .inr ⟨_, ?_, .operandA h0 (by omega) (by rw [hb]; decide) (by rw [hop]; decide)⟩
      simp only [fetchOperands, fetchOperandA, memRead, if_neg h1]
      rfl

theorem fetched_of_fetch {cfg : Config} {s : State} {i : Instr} (h : fetch cfg s = .ok i) : Fetched cfg s i := by
  rcases fetch_cases cfg s with ⟨j, hj, hf⟩ | ⟨e, he, -⟩
  · rw [h] at hj
    cases hj
    exact hf
  · rw [h] at he
    cases he

theorem fetchError_of_fetch {cfg : Config} {s : State} {e : FatalError} (h : fetch cfg s = .error e) :
    FetchError cfg s e := by
  rcases fetch_cases cfg s with ⟨j, hj, -⟩ | ⟨e', he, hf⟩
  · rw [h] at hj
    cases hj
  · rw [h] at he
    cases he
    exact hf

/-- In an enabled state a cycle takes the fetch's error or runs the fetched instruction. -/
theorem stepAt_of_enabled (cfg : Config) {s : State} (h : s.run = .running ∧ s.fault = none) :
    stepAt cfg s = match fetch cfg s with
      | .error e => .next (takeError e s)
      | .ok i => exec i s := by
  have hr := (restReason_eq_none_iff s).mpr h
  cases hf : fetch cfg s <;> simp only [stepAt, hr, hf]

/-- In a state that is not enabled no cycle is performed. -/
theorem stepAt_of_resting (cfg : Config) {s : State} {r : Fault} (h : restReason s = some r) :
    stepAt cfg s = .fault r := by
  simp only [stepAt, h]

/-- Everything a cycle can do. -/
theorem stepAt_cases {cfg : Config} {s t : State} (h : stepAt cfg s = .next t) :
    (s.run = .running ∧ s.fault = none) ∧
      ((∃ e, FetchError cfg s e ∧ t = takeError e s) ∨ (∃ i, Fetched cfg s i ∧ ExecCase s i t)) := by
  cases hr : restReason s with
  | some r => simp [stepAt_of_resting cfg hr] at h
  | none =>
    have hen := (restReason_eq_none_iff s).mp hr
    refine ⟨hen, ?_⟩
    rw [stepAt_of_enabled cfg hen] at h
    cases hf : fetch cfg s with
    | error e =>
      rw [hf] at h
      cases h
      exact .inl ⟨e, fetchError_of_fetch hf, rfl⟩
    | ok i =>
      rw [hf] at h
      exact .inr ⟨i, fetched_of_fetch hf, exec_cases h⟩

end Sys2Proof.Machine
end

