-- ==== Sys2Proof/Machine/Flags.lean ====
section
/-! DEFINITION. Flags: the machine has none (spec/10_state.md R33). State has no flag, carry, overflow,
zero, sign or comparison bit, no instruction sets or reads one, and ADD and MULTIPLY discard the
carry-out and the high half of the product (spec/43_alu_multiply.md R141, R142). So no flag
computation is defined here. -/
end

