-- ==== Sys2Proof/Tests/Slice0.lean ====
section
/-! SUPPORT. The model's own tests, with expected results from spec/95_test_vectors.md (the vector's id
stands in the name) or from the tables of spec/30_encoding.md, and a witness for the hypotheses of each
statement that has some. -/

namespace Sys2Proof.Tests

open Sys2Proof.Machine

/-- A running state with `bytes` from address `pc` on and `pc` there, all else as after reset. -/
def at_ (pc : Nat) (bytes : List Byte) : State :=
  { State.reset with mem := setCells [] pc bytes, pc := BitVec.ofNat 8 pc }

/-- `at_` with the given registers. -/
def atRegs (pc : Nat) (bytes : List Byte) (regs : RegFile) : State := { at_ pc bytes with regs := regs }

/-- The next state of an outcome, if it is one. -/
def nextOf : Host.Outcome State Fault Refusal → Option State
  | .next t => some t
  | .fault _ => none
  | .refused _ => none

/-! ### Well-formedness: an ill-formed term for each check -/

theorem test_wf_refuses_print : (Instr.print 256).wellFormed = false := by decide
theorem test_wf_refuses_load : (Instr.loadImmediate 256 0#8).wellFormed = false := by decide
theorem test_wf_refuses_multiply_a : (Instr.multiply 256 0).wellFormed = false := by decide
theorem test_wf_refuses_multiply_b : (Instr.multiply 0 256).wellFormed = false := by decide
theorem test_wf_accepts_faulting_index : (Instr.print 255).wellFormed = true := by decide
theorem test_config_refuses_0 : ¬ Config.wf { memSize := 0 } := by decide
theorem test_config_refuses_254 : ¬ Config.wf { memSize := 254 } := by decide
theorem test_config_accepts_reference : Config.reference.wf := by decide
theorem test_memory_refuses_unsorted : ¬ Memory.wf [(2, 1#8), (1, 1#8)] := by decide
theorem test_memory_refuses_zero_cell : ¬ Memory.wf [(2, 0#8)] := by decide
theorem test_memory_refuses_absent_cell : ¬ Memory.inRange Config.reference [(64, 1#8)] := by decide

/-! ### Decoding: words written from 30_encoding.md section 3 -/

theorem test_decode_noOp : decode [0b00000000#8] = .ok (.noOp, []) := by decide
theorem test_decode_halt : decode [0b00000001#8] = .ok (.halt, []) := by decide
theorem test_decode_print : decode [0b01000111#8, 0b00000011#8] = .ok (.print 3, []) := by decide
theorem test_decode_load :
    decode [0b10000010#8, 0b00000111#8, 0b11111111#8] = .ok (.loadImmediate 7 255#8, []) := by decide
theorem test_decode_multiply :
    decode [0b10100010#8, 0b00000001#8, 0b11111111#8] = .ok (.multiply 1 255, []) := by decide
theorem test_decode_add_is_unknown : decode [0xA0#8, 0#8, 1#8] = .error (.unknownOpcode 0xA0#8) := by decide
theorem test_decode_shared_low_bits : decode [0x41#8, 0#8] = .error (.unknownOpcode 0x41#8) := by decide
theorem test_decode_missing_operand : decode [0x82#8, 9#8] = .error (.missingOperand 2) := by decide
theorem test_decode_count_3 :
    decodeOpcode 0xE2#8 = { cnt := 3#2, b5 := 1#1, opid := 2#5, width := 4, op := .unknown } := by decide
/-- The first byte of a table word is its low byte: `LOAD_IMMEDIATE r1, 9` is 82 01 09. -/
theorem test_table_word : decodeTableWord 24 0x090182 = some (.loadImmediate 1 9#8) := by decide
/-- Bits above `nbits` are zero. -/
theorem test_table_word_short : decodeTableWord 8 0x090182 = some (.loadImmediate 0 0#8) := by decide
theorem test_table_word_refused : decodeTableWord 8 0xFF = none := by decide

/-! ### The component interfaces -/

theorem test_V2 : (memWrite Config.reference [] 63 0xAB#8).bind (fun m => memRead Config.reference m 63)
    = .ok 0xAB#8 := by decide
theorem test_V4 : memWrite Config.reference [] 64 1#8 = .error (.outOfBounds 64) := by decide
theorem test_V6 : (memWrite Config.reference [(5, 7#8)] 5 9#8) = .ok [(5, 9#8)] := by decide
theorem test_V9 : memLoad Config.reference [] [1#8, 2#8] 63 = .error (.outOfBounds 64) := by decide
theorem test_V10 : memLoad Config.reference [] [1#8] 63 = .ok [(63, 1#8)] := by decide
theorem test_V12 : memLoad Config.reference [] [1#8] 70 = .error (.outOfBounds 70) := by decide
theorem test_V17 : writeReg State.reset.regs 8 1 = .error (.outOfBounds 8) := by decide
theorem test_V19 : writeReg State.reset.regs 3 300 = .ok #v[0, 0, 0, 44, 0, 0, 0, 0] := by decide
theorem test_VA2 : aluApply .add 0 1 #v[200, 100, 0, 0, 0, 0, 0, 0] = .ok (44, #v[44, 100, 0, 0, 0, 0, 0, 0]) := by
  decide
theorem test_VA9 : aluApply .multiply 0 1 #v[255, 255, 0, 0, 0, 0, 0, 0] = .ok (1, #v[1, 255, 0, 0, 0, 0, 0, 0]) := by
  decide
theorem test_VA15 : aluApply (.other 3) 9 1 State.reset.regs = .error (.unsupportedOperation (.other 3)) := by decide
theorem test_VA18 : aluApply .multiply 9 10 State.reset.regs = .error (.outOfBounds 9) := by decide

/-! ### One cycle of each instruction -/

theorem test_V21_halt_in_last_cell :
    (nextOf (step (at_ 63 [1#8]))).map (fun t => (t.pc, t.run, t.fault)) = some (64#8, .halted, none) := by decide
theorem test_V25_no_cycle_when_halted : nextOf (step { at_ 0 [1#8] with run := .halted }) = none := by decide
theorem test_V23_noOp_in_last_cell :
    (nextOf (step (at_ 63 [0#8]))).map (fun t => (t.pc, t.run, t.fault)) = some (64#8, .running, none) := by decide
theorem test_V24_fetch_at_end :
    (nextOf (step (at_ 64 []))).map (fun t => (t.pc, t.run, t.fault)) =
      some (64#8, .running, some (.outOfBounds 64)) := by decide
theorem test_V32_load_ends_in_last_cell :
    (nextOf (step (at_ 61 [0x82#8, 1#8, 0x2A#8]))).map (fun t => (t.pc, t.regs)) =
      some (64#8, #v[0, 42, 0, 0, 0, 0, 0, 0]) := by decide
theorem test_V37_load_operand_before_index :
    (nextOf (step (at_ 62 [0x82#8, 9#8]))).map (fun t => (t.pc, t.fault)) =
      some (62#8, some (.outOfBounds 64)) := by decide
theorem test_V29_print :
    (nextOf (step (atRegs 0 [0x47#8, 0#8] #v[72, 0, 0, 0, 0, 0, 0, 0]))).map (fun t => (t.pc, t.out)) =
      some (2#8, [72#8]) := by decide
theorem test_V36_print_bad_index :
    (nextOf (step (at_ 0 [0x47#8, 0xFF#8]))).map (fun t => (t.pc, t.out, t.fault)) =
      some (0#8, [], some (.outOfBounds 255)) := by decide
theorem test_V41_multiply_second_order :
    (nextOf (step (atRegs 0 [0xA2#8, 1#8, 0#8] #v[3, 4, 0, 0, 0, 0, 0, 0]))).map (fun t => (t.pc, t.regs)) =
      some (3#8, #v[3, 12, 0, 0, 0, 0, 0, 0]) := by decide
theorem test_V48_multiply_bad_indices :
    (nextOf (step (at_ 0 [0xA2#8, 9#8, 10#8]))).map (fun t => (t.pc, t.fault)) =
      some (0#8, some (.outOfBounds 9)) := by decide
theorem test_V53_unknown_in_last_cell :
    (nextOf (step (at_ 63 [0xFF#8]))).map (fun t => (t.pc, t.run, t.fault)) =
      some (63#8, .running, some (.unknownInstruction 0xFF#8 63#8)) := by decide

/-! ### Witnesses: the hypotheses of the statements can be met -/

section Witnesses

theorem witness_DecodeInvertsEncode : (Instr.multiply 255 8).wellFormed = true := by decide

theorem witness_EncodeInvertsDecode : decode [0x47#8, 255#8, 1#8] = .ok (.print 255, [1#8]) := by decide

theorem witness_WidthFormulaAdvancesPc :
    (decodeOpcode 0xFF#8).cnt = 3#2 ∧
    (∃ t, stepAt Config.reference (at_ 61 [0xA2#8, 7#8, 0#8]) = .next t ∧ t.fault = none) ∧
    (∃ t, stepAt Config.reference (at_ 63 [0xC0#8]) = .next t ∧
      (decodeOpcode (cell (at_ 63 [0xC0#8]).mem (at_ 63 [0xC0#8]).pc.toNat)).op = .unknown) :=
  ⟨by decide, ⟨_, rfl, by decide⟩, ⟨_, rfl, by decide⟩⟩

theorem witness_ResetStateTable : 63 < Config.reference.memSize ∧ (7 : Nat) < 8 := by decide

/-- One completed LOAD_IMMEDIATE into r0, and register 7 is not written. -/
theorem witness_RegistersReadZeroAtReset :
    launch Config.reference [0x82#8, 0#8, 8#8] = .ok (at_ 0 [0x82#8, 0#8, 8#8]) ∧ (7 : Nat) < 8 ∧
    (∃ t, stepAt Config.reference (at_ 0 [0x82#8, 0#8, 8#8]) = .next t ∧ t.fault = none) ∧
    (∀ j, j < 1 → ∀ t, stepAt Config.reference (runFor Config.reference j (at_ 0 [0x82#8, 0#8, 8#8])) = .next t →
      t.fault = none →
      ¬ ((memRead Config.reference (runFor Config.reference j (at_ 0 [0x82#8, 0#8, 8#8])).mem
            (runFor Config.reference j (at_ 0 [0x82#8, 0#8, 8#8])).pc.toNat = .ok 0x82#8 ∨
          memRead Config.reference (runFor Config.reference j (at_ 0 [0x82#8, 0#8, 8#8])).mem
            (runFor Config.reference j (at_ 0 [0x82#8, 0#8, 8#8])).pc.toNat = .ok 0xA2#8) ∧
        memRead Config.reference (runFor Config.reference j (at_ 0 [0x82#8, 0#8, 8#8])).mem
          ((runFor Config.reference j (at_ 0 [0x82#8, 0#8, 8#8])).pc.toNat + 1) = .ok (BitVec.ofNat 8 7))) := by
  refine ⟨by decide, by decide, ⟨_, rfl, by decide⟩, fun j hj t _ _ => ?_⟩
  obtain rfl : j = 0 := by omega
  decide

theorem witness_FirstFetchIsCellZero :
    launch Config.reference [0x82#8, 0#8, 8#8] = .ok { State.reset with mem := [(0, 0x82#8), (2, 8#8)] } := by
  decide

theorem witness_LaunchStateIsProgramThenZeros :
    (List.replicate 64 0x01#8).length ≤ Config.reference.memSize ∧ 63 < Config.reference.memSize := by decide

theorem witness_MemReadIsChecked : 63 < Config.reference.memSize ∧ Config.reference.memSize ≤ 64 := by decide

theorem witness_MemWriteChangesOneCell :
    Memory.wf [(62, 1#8), (63, 2#8)] ∧ 63 < Config.reference.memSize ∧ (62 : Nat) ≠ 63 ∧
      Config.reference.memSize ≤ 64 := by decide

theorem witness_MemLoadPlacesAllOrNothing :
    Memory.wf [(62, 1#8)] ∧ 63 + [5#8].length ≤ Config.reference.memSize ∧ 0 < [5#8].length ∧ (62 : Nat) < 63 ∧
      63 + [5#8].length ≤ 64 ∧ Config.reference.memSize < 63 + [5#8, 6#8].length := by decide

theorem witness_RegisterReadIsChecked : (7 : Nat) < 8 ∧ (8 : Nat) ≤ 8 := by decide

theorem witness_RegisterWriteIsChecked : (7 : Nat) < 8 ∧ (6 : Nat) ≠ 7 ∧ (8 : Nat) ≤ 8 := by decide

theorem witness_AluAddsAndMultipliesModulo256 : (0 : Nat) < 8 ∧ (7 : Nat) < 8 := by decide

theorem witness_AluChecksTagThenRegisters :
    (AluOp.multiply = .add ∨ AluOp.multiply = .multiply) ∧ (8 : Nat) ≤ 8 ∧ (7 : Nat) < 8 ∧ (8 : Nat) ≤ 255 := by
  decide

theorem witness_UnsupportedOperationIsUnreachable :
    (aluApply (.other 0) 0 0 State.reset.regs = .error (.unsupportedOperation (.other 0))) ∧
    (∃ t, stepAt Config.reference (at_ 0 [0xA2#8, 0#8, 8#8]) = .next t) :=
  ⟨rfl, ⟨_, rfl⟩⟩

theorem witness_PrintCompletes : (7 : Nat) < 8 := by decide

theorem witness_LoadImmediateCompletes : (7 : Nat) < 8 := by decide

theorem witness_MultiplyCompletes : (7 : Nat) < 8 ∧ (0 : Nat) < 8 := by decide

theorem witness_BadRegisterIndexIsTaken : (8 : Nat) ≤ 8 ∧ (8 : Nat) ≤ 255 ∧ (7 : Nat) < 8 := by decide

theorem witness_MultiplyValueCommutes : (7 : Nat) < 8 ∧ (0 : Nat) < 8 ∧ (7 : Nat) ≠ 0 := by decide

theorem witness_RegisterWritersFrame :
    (∃ t, exec (.loadImmediate 7 255#8) State.reset = .next t) ∧ (∃ t, exec (.loadImmediate 8 1#8) State.reset = .next t) ∧
    (∃ t, exec (.multiply 7 0) State.reset = .next t) ∧ (∃ t, exec (.multiply 0 8) State.reset = .next t) ∧
    (6 : Nat) ≠ 7 ∧ (7 : Nat) < 8 :=
  ⟨⟨_, rfl⟩, ⟨_, rfl⟩, ⟨_, rfl⟩, ⟨_, rfl⟩, by decide, by decide⟩

theorem witness_NonWritersFrame :
    (∃ t, exec .noOp State.reset = .next t) ∧ (∃ t, exec .halt State.reset = .next t) ∧
    (∃ t, exec (.print 7) State.reset = .next t) ∧ (∃ t, exec (.print 8) State.reset = .next t) ∧ (7 : Nat) < 8 :=
  ⟨⟨_, rfl⟩, ⟨_, rfl⟩, ⟨_, rfl⟩, ⟨_, rfl⟩, by decide⟩

theorem witness_HaltCycleStopsTheMachine :
    (at_ 63 [1#8]).enabled ∧
    memRead Config.reference (at_ 63 [1#8]).mem (at_ 63 [1#8]).pc.toNat = .ok 0x01#8 ∧ Config.reference.wf ∧
    (∃ t, stepAt Config.reference (at_ 63 [1#8]) = .next t ∧ t.run = .halted) :=
  ⟨by decide, by decide, by decide, ⟨_, rfl, by decide⟩⟩

theorem witness_NoOpCyclesSlideToTheEnd :
    Config.reference.wf ∧ (at_ 63 []).enabled ∧
    memRead Config.reference (at_ 63 []).mem (at_ 63 []).pc.toNat = .ok 0x00#8 ∧
    (at_ 63 []).pc.toNat + 1 = Config.reference.memSize ∧
    (∀ a, (at_ 63 []).pc.toNat ≤ a → a < Config.reference.memSize →
      memRead Config.reference (at_ 63 []).mem a = .ok 0x00#8) ∧
    (at_ 64 []).enabled ∧ (at_ 64 []).pc.toNat ≤ Config.reference.memSize := by
  refine ⟨by decide, by decide, by decide, by decide, fun a _ h => ?_, by decide, by decide⟩
  rw [memRead_eq_ok_iff]
  exact ⟨h, rfl⟩

theorem witness_PrintCycle :
    (at_ 62 [0x47#8, 7#8]).enabled ∧
    memRead Config.reference (at_ 62 [0x47#8, 7#8]).mem (at_ 62 [0x47#8, 7#8]).pc.toNat = .ok 0x47#8 ∧
    (at_ 63 [0x47#8]).enabled ∧
    memRead Config.reference (at_ 63 [0x47#8]).mem (at_ 63 [0x47#8]).pc.toNat = .ok 0x47#8 := by decide

theorem witness_LoadImmediateCycle :
    (at_ 61 [0x82#8, 8#8, 5#8]).enabled ∧
    memRead Config.reference (at_ 61 [0x82#8, 8#8, 5#8]).mem (at_ 61 [0x82#8, 8#8, 5#8]).pc.toNat = .ok 0x82#8 ∧
    (at_ 62 [0x82#8, 9#8]).enabled ∧
    memRead Config.reference (at_ 62 [0x82#8, 9#8]).mem (at_ 62 [0x82#8, 9#8]).pc.toNat = .ok 0x82#8 := by decide

theorem witness_MultiplyCycle :
    (at_ 61 [0xA2#8, 7#8, 8#8]).enabled ∧
    memRead Config.reference (at_ 61 [0xA2#8, 7#8, 8#8]).mem (at_ 61 [0xA2#8, 7#8, 8#8]).pc.toNat = .ok 0xA2#8 ∧
    (at_ 63 [0xA2#8]).enabled ∧
    memRead Config.reference (at_ 63 [0xA2#8]).mem (at_ 63 [0xA2#8]).pc.toNat = .ok 0xA2#8 := by decide

theorem witness_UnknownOpcodesAreFatal :
    (at_ 63 [0xA0#8]).enabled ∧
    memRead Config.reference (at_ 63 [0xA0#8]).mem (at_ 63 [0xA0#8]).pc.toNat = .ok 0xA0#8 ∧
    (0xA0#8 : Byte) ∉ [0x00#8, 0x01#8, 0x47#8, 0x82#8, 0xA2#8] := by decide

theorem witness_LoadThenPrintEmitsTheValue :
    Config.reference.wf ∧ (at_ 59 [0x82#8, 7#8, 255#8, 0x47#8, 7#8]).enabled ∧ (7#8 : Byte).toNat < 8 ∧
    (at_ 59 [0x82#8, 7#8, 255#8, 0x47#8, 7#8]).pc.toNat + 5 ≤ Config.reference.memSize ∧
    cellsFrom (at_ 59 [0x82#8, 7#8, 255#8, 0x47#8, 7#8]).mem 5
      (at_ 59 [0x82#8, 7#8, 255#8, 0x47#8, 7#8]).pc.toNat = [0x82#8, 7#8, 255#8, 0x47#8, 7#8] := by decide

theorem witness_StepRunsDecodedInstruction :
    (at_ 61 [0xA2#8, 0#8, 255#8]).enabled ∧
    decode (cellsFrom (at_ 61 [0xA2#8, 0#8, 255#8]).mem
      (Config.reference.memSize - (at_ 61 [0xA2#8, 0#8, 255#8]).pc.toNat)
      (at_ 61 [0xA2#8, 0#8, 255#8]).pc.toNat) = .ok (.multiply 0 255, []) := by decide

theorem witness_StepTakesDecodeErrors :
    (at_ 64 []).enabled ∧ (at_ 64 []).pc.toNat ≤ Config.reference.memSize ∧
    decode (cellsFrom (at_ 64 []).mem (Config.reference.memSize - (at_ 64 []).pc.toNat) (at_ 64 []).pc.toNat) =
      .error .noOpcode ∧
    decode (cellsFrom (at_ 63 [0xFF#8]).mem (Config.reference.memSize - (at_ 63 [0xFF#8]).pc.toNat)
      (at_ 63 [0xFF#8]).pc.toNat) = .error (.unknownOpcode 0xFF#8) ∧
    decode (cellsFrom (at_ 62 [0x82#8]).mem (Config.reference.memSize - (at_ 62 [0x82#8]).pc.toNat)
      (at_ 62 [0x82#8]).pc.toNat) = .error (.missingOperand 2) := by decide

theorem witness_FetchIsCheckedAtPc :
    (at_ 63 []).enabled ∧ (at_ 63 []).pc.toNat < Config.reference.memSize ∧
    (at_ 64 []).enabled ∧ Config.reference.memSize ≤ (at_ 64 []).pc.toNat := by decide

theorem witness_CycleIffEnabled :
    State.reset.enabled ∧
    ({ State.reset with fault := some (.outOfBounds 64) } : State).fault = some (.outOfBounds 64) ∧
    ({ State.reset with run := .halted } : State).cleanHalt := by decide

theorem witness_RaiseChangesOnlyTheFaultLatch :
    ∃ t, stepAt Config.reference (at_ 0 [0x47#8, 8#8]) = .next t ∧ t.fault = some (.outOfBounds 8) :=
  ⟨_, rfl, by decide⟩

theorem witness_CompletedCycleStaysInMemory :
    Config.reference.wf ∧ ∃ t, stepAt Config.reference (at_ 61 [0x82#8, 0#8, 1#8]) = .next t ∧ t.fault = none :=
  ⟨by decide, _, rfl, by decide⟩

theorem witness_MemoryIsConstant : ∃ t, stepAt Config.reference (at_ 0 [0x82#8, 0#8, 1#8]) = .next t := ⟨_, rfl⟩

theorem witness_RegistersChangeOnlyByTheTwoWriters :
    ∃ t, stepAt Config.reference (at_ 0 [0x82#8, 7#8, 1#8]) = .next t ∧
      t.regs[7] ≠ (at_ 0 [0x82#8, 7#8, 1#8]).regs[7] :=
  ⟨_, rfl, by decide⟩

theorem witness_RunFlagChangesOnlyByHalt :
    (∃ t, stepAt Config.reference (at_ 63 [1#8]) = .next t ∧ t.run ≠ (at_ 63 [1#8]).run ∧
      memRead Config.reference (at_ 63 [1#8]).mem (at_ 63 [1#8]).pc.toNat = .ok 0x01#8) ∧
    (∃ t, stepAt Config.reference (at_ 63 [2#8]) = .next t ∧ t.fault ≠ none) ∧
    (∃ t, exec .halt State.reset = .next t) :=
  ⟨⟨_, rfl, by decide, by decide⟩, ⟨_, rfl, by decide⟩, ⟨_, rfl⟩⟩

theorem witness_OutputGrowsOnlyByPrint :
    (∃ t, stepAt Config.reference (at_ 62 [0x47#8, 7#8]) = .next t ∧ t.fault = none ∧
      memRead Config.reference (at_ 62 [0x47#8, 7#8]).mem (at_ 62 [0x47#8, 7#8]).pc.toNat = .ok 0x47#8) ∧
    (∃ t, stepAt Config.reference (at_ 62 [0x47#8, 8#8]) = .next t ∧ t.fault ≠ none) :=
  ⟨⟨_, rfl, by decide, by decide⟩, ⟨_, rfl, by decide⟩⟩

theorem witness_OutputIsNeverRead : ∃ t, stepAt Config.reference (at_ 62 [0x47#8, 7#8]) = .next t := ⟨_, rfl⟩

theorem witness_RestingStatesStay :
    ¬ ({ State.reset with run := .halted } : State).enabled ∧
    ¬ ({ State.reset with fault := some (.outOfBounds 64) } : State).enabled := by decide

theorem witness_RunEndsInHaltOrCrash :
    (at_ 63 [1#8]).enabled ∧ ¬ (runFor Config.reference 1 (at_ 63 [1#8])).enabled ∧
    (at_ 64 []).enabled ∧ ¬ (runFor Config.reference 1 (at_ 64 [])).enabled ∧
    (∃ t, stepAt Config.reference (at_ 63 [1#8]) = .next t) :=
  ⟨by decide, by decide, by decide, by decide, ⟨_, rfl⟩⟩

theorem witness_FinalPc :
    Config.reference.wf ∧
    (∃ t, stepAt Config.reference (at_ 63 [1#8]) = .next t ∧ t.cleanHalt) ∧
    (∃ t, stepAt Config.reference (at_ 63 [0xFF#8]) = .next t ∧ t.crashedWith (.unknownInstruction 0xFF#8 63#8)) :=
  ⟨by decide, ⟨_, rfl, by decide⟩, ⟨_, rfl, by decide⟩⟩

theorem witness_EveryRunEnds :
    Config.reference.wf ∧ (at_ 62 []).pc.toNat ≤ Config.reference.memSize ∧
    (runFor Config.reference (Config.reference.memSize - (at_ 62 []).pc.toNat) (at_ 62 [])).enabled ∧
    (at_ 64 []).pc.toNat ≤ Config.reference.memSize ∧
    (runFor Config.reference (Config.reference.memSize - (at_ 64 []).pc.toNat) (at_ 64 [])).enabled ∧
    (at_ 64 []).pc.toNat ≤ 64 := by decide

theorem witness_StepKeepsInvariant :
    Config.reference.wf ∧ Inv Config.reference (at_ 63 [0xFF#8]) ∧
    (∃ t, stepAt Config.reference (at_ 63 [0xFF#8]) = .next t) ∧
    (∃ t, Sys2Proof.Machine.step (at_ 63 [0xFF#8]) = .next t) :=
  ⟨by decide, ⟨by decide, by decide, by decide, by decide, nofun⟩, ⟨_, rfl⟩, ⟨_, rfl⟩⟩

theorem witness_LaunchHasInvariant : launch Config.reference [1#8] = .ok { State.reset with mem := [(0, 1#8)] } := by
  decide

theorem witness_PlacedWordIsRun :
    (at_ 61 []).enabled ∧ (at_ 61 []).mem.wf ∧ (at_ 61 []).pc.toNat + 3 ≤ 64 ∧
    decodeTableWord 24 0x0800A2 = some (.multiply 0 8) := by decide

end Witnesses

end Sys2Proof.Tests
end

section
/-! SUPPORT. What a launch, a fetched instruction, its effect and a run say of single fields of the
state: the facts the statements of spec/10_state.md are assembled from. -/

namespace Sys2Proof.Machine

section Launch
variable {cfg : Config} {program : List Byte} {s : State}

/-- A launch state is the reset state with the loaded memory. -/
theorem launch_eq_ok (h : launch cfg program = .ok s) :
    ∃ mem, memLoad cfg State.reset.mem program 0 = .ok mem ∧ s = { State.reset with mem := mem } := by
  unfold launch at h
  cases hload : memLoad cfg State.reset.mem program 0 with
  | error e => rw [hload] at h; cases h
  | ok mem => rw [hload] at h; cases h; exact ⟨mem, rfl, rfl⟩

theorem launch_regs (h : launch cfg program = .ok s) : s.regs = State.reset.regs := by
  obtain ⟨mem, -, rfl⟩ := launch_eq_ok h
  rfl

theorem launch_pc (h : launch cfg program = .ok s) : s.pc = 0#8 := by
  obtain ⟨mem, -, rfl⟩ := launch_eq_ok h
  rfl

theorem reset_regs_getElem {i : Nat} (h : i < 8) : State.reset.regs[i] = 0#8 := by
  simp [State.reset]

theorem fetchOpcode_of_pc_zero (cfg : Config) (h : s.pc = 0#8) : fetchOpcode cfg s = memRead cfg s.mem 0 := by
  simp [fetchOpcode, h]

end Launch

section FetchedBytes
variable {cfg : Config} {s : State} {i : Instr}

theorem cellsFrom_getElem? (m : Memory) (k a j : Nat) :
    (cellsFrom m k a)[j]? = if j < k then some (cell m (a + j)) else none := by
  induction k generalizing a j with
  | zero => simp [cellsFrom]
  | succ k ih =>
    cases j with
    | zero => simp [cellsFrom]
    | succ j => simp [cellsFrom, ih, Nat.add_assoc, Nat.add_comm 1 j]

/-- The memory port reads the bytes of a fetched instruction's encoding from pc on. -/
theorem Fetched.memRead_byte (h : Fetched cfg s i) {j : Nat} {b : Byte} (hb : (encode i)[j]? = some b) :
    memRead cfg s.mem (s.pc.toNat + j) = .ok b := by
  rw [← h.bytes, cellsFrom_getElem?] at hb
  have hfits := h.fits
  split at hb
  · exact (memRead_eq_ok_iff ..).mpr ⟨by omega, Option.some.inj hb⟩
  · cases hb

theorem Fetched.memRead_pc (h : Fetched cfg s i) : memRead cfg s.mem s.pc.toNat = .ok (opcodeOf i) :=
  h.memRead_byte (j := 0) rfl

/-- The byte at pc names the fetched instruction's opcode. -/
theorem Fetched.memRead_pc_iff (h : Fetched cfg s i) (b : Byte) :
    memRead cfg s.mem s.pc.toNat = .ok b ↔ opcodeOf i = b := by
  rw [h.memRead_pc, Except.ok.injEq]

theorem opcodeOf_eq_halt_iff : opcodeOf i = 0x01#8 ↔ i = .halt := by
  cases i <;> simp [opcodeOf]

theorem opcodeOf_eq_print_iff : opcodeOf i = 0x47#8 ↔ ∃ a, i = .print a := by
  cases i <;> simp [opcodeOf]

/-- A fetch fails after a readable opcode byte only if the byte is unknown or takes an operand. -/
theorem FetchError.unknown_or_hasOperand {e : FatalError} {b : Byte} (h : FetchError cfg s e)
    (hb : memRead cfg s.mem s.pc.toNat = .ok b) : decodeOperation b = .unknown ∨ 2 ≤ opcodeWidth b := by
  obtain ⟨hpc, rfl⟩ := (memRead_eq_ok_iff ..).mp hb
  cases h with
  | opcode hout => omega
  | unknown _ hop => exact .inl hop
  | operandA _ _ hw _ => exact .inr hw
  | operandB _ _ hw _ => exact .inr (by omega)

/-- Fetching a HALT cannot fail once its opcode byte is read. -/
theorem FetchError.memRead_pc_ne_halt {e : FatalError} (h : FetchError cfg s e) :
    memRead cfg s.mem s.pc.toNat ≠ .ok 0x01#8 := fun hb =>
  absurd (h.unknown_or_hasOperand hb) (by decide)

end FetchedBytes

section Effect
variable {s t : State} {i : Instr}

/-- An effect either keeps the fault latch or is a taken error, which changes nothing else. -/
theorem ExecCase.fault_kept_or_takeError (h : ExecCase s i t) : t.fault = s.fault ∨ ∃ e, t = takeError e s := by
  cases h with
  | noOp | halt | print | load | mul => exact .inl rfl
  | printBad | loadBad | mulBadA | mulBadB => exact .inr ⟨_, rfl⟩

theorem ExecCase.run_eq (h : ExecCase s i t) : t.run = if i = .halt then .halted else s.run := by
  cases h <;> rfl

/-- An effect that changes `out` is a completed PRINT. -/
theorem ExecCase.out_kept_or_print (h : ExecCase s i t) :
    t.out = s.out ∨ ∃ a, ∃ _ : a < 8, i = .print a ∧ t = advance 2 (emit s.regs[a] s) := by
  cases h with
  | print a ha => exact .inr ⟨a, ha, rfl, rfl⟩
  | noOp | halt | printBad | load | loadBad | mul | mulBadA | mulBadB => exact .inl rfl

/-- An effect that changes register `j` is a completed register write whose first operand is `j`. -/
theorem ExecCase.regs_changed (h : ExecCase s i t) {j : Nat} (hj : j < 8) (hne : t.regs[j] ≠ s.regs[j]) :
    t.fault = s.fault ∧ ((∃ b, i = .loadImmediate j b) ∨ ∃ b, i = .multiply j b) := by
  have written : ∀ {a : Nat} {v : Word} (ha : a < 8), (s.regs.set a v)[j] ≠ s.regs[j] → a = j :=
    fun ha hset => Classical.byContradiction fun haj => hset (Vector.getElem_set_ne ha hj haj)
  cases h with
  | load a b ha =>
    obtain rfl := written ha hne
    exact ⟨rfl, .inl ⟨b, rfl⟩⟩
  | mul a b ha hb =>
    obtain rfl := written ha hne
    exact ⟨rfl, .inr ⟨b, rfl⟩⟩
  | noOp | halt | print | printBad | loadBad | mulBadA | mulBadB => exact absurd rfl hne

/-- In one state an instruction has one effect: the cases exclude each other. -/
theorem ExecCase.unique {u : State} (h : ExecCase s i t) (h' : ExecCase s i u) : t = u := by
  cases h with
  | noOp | halt => cases h'; rfl
  | print a ha | load a b ha =>
    cases h'
    · rfl
    · omega
  | printBad a ha | loadBad a b ha =>
    cases h'
    · omega
    · rfl
  | mul a b ha hb =>
    cases h'
    · rfl
    · omega
    · omega
  | mulBadA a b ha =>
    cases h'
    · omega
    · rfl
    · omega
  | mulBadB a b ha hb =>
    cases h'
    · omega
    · omega
    · rfl

/-- The converse of `exec_cases`. -/
theorem ExecCase.exec_next (h : ExecCase s i t) : exec i s = .next t := by
  obtain ⟨u, hu, hcase⟩ := exec_eq i s
  rw [hu, h.unique hcase]

/-- The effect does not depend on `run`: only HALT's own write shows in it. -/
theorem ExecCase.withRun (h : ExecCase s i t) (r : RunState) :
    ExecCase { s with run := r } i { t with run := if i = .halt then .halted else r } := by
  cases h with
  | noOp => exact .noOp
  | halt => exact .halt
  | print a ha => exact .print a ha
  | printBad a ha => exact .printBad a ha
  | load a b ha => exact .load a b ha
  | loadBad a b ha => exact .loadBad a b ha
  | mul a b ha hb => exact .mul a b ha hb
  | mulBadA a b ha => exact .mulBadA a b ha
  | mulBadB a b ha hb => exact .mulBadB a b ha hb

end Effect

section Cycle
variable {cfg : Config} {s t : State}

/-- A cycle that changes register `j` completes, and runs a LOAD_IMMEDIATE or MULTIPLY whose first
operand byte is `j` (10_state.md R25). -/
theorem stepAt_regs_changed (h : stepAt cfg s = .next t) {j : Nat} (hj : j < 8) (hne : t.regs[j] ≠ s.regs[j]) :
    t.fault = none ∧
      (memRead cfg s.mem s.pc.toNat = .ok 0x82#8 ∨ memRead cfg s.mem s.pc.toNat = .ok 0xA2#8) ∧
      memRead cfg s.mem (s.pc.toNat + 1) = .ok (BitVec.ofNat 8 j) := by
  obtain ⟨⟨-, hfault⟩, ⟨e, -, rfl⟩ | ⟨i, hfetched, hcase⟩⟩ := stepAt_cases h
  · exact absurd rfl hne
  · obtain ⟨hkept, ⟨b, rfl⟩ | ⟨b, rfl⟩⟩ := hcase.regs_changed hj hne
    · exact ⟨hkept.trans hfault, .inl hfetched.memRead_pc, hfetched.memRead_byte rfl⟩
    · exact ⟨hkept.trans hfault, .inr hfetched.memRead_pc, hfetched.memRead_byte rfl⟩

/-- A cycle's effect on `run`: HALTED when the opcode byte at pc is HALT's, else unchanged. -/
theorem stepAt_run (h : stepAt cfg s = .next t) :
    t.run = if memRead cfg s.mem s.pc.toNat = .ok 0x01#8 then .halted else s.run := by
  obtain ⟨-, ⟨e, herr, rfl⟩ | ⟨i, hfetched, hcase⟩⟩ := stepAt_cases h
  · rw [if_neg herr.memRead_pc_ne_halt, takeError_run]
  · simp only [hcase.run_eq, hfetched.memRead_pc_iff, opcodeOf_eq_halt_iff]

/-- A cycle either completes or takes an error from the state it began in (60_exceptions.md R165). -/
theorem stepAt_completes_or_takeError (h : stepAt cfg s = .next t) : t.fault = none ∨ ∃ e, t = takeError e s := by
  obtain ⟨⟨-, hfault⟩, ⟨e, -, rfl⟩ | ⟨i, -, hcase⟩⟩ := stepAt_cases h
  · exact .inr ⟨e, rfl⟩
  · exact hcase.fault_kept_or_takeError.imp_left (·.trans hfault)

/-- A completed cycle of an opcode byte PRINT emits the register its operand byte names. -/
theorem stepAt_print (h : stepAt cfg s = .next t) (hop : memRead cfg s.mem s.pc.toNat = .ok 0x47#8)
    (hdone : t.fault = none) :
    ∃ a : Byte, memRead cfg s.mem (s.pc.toNat + 1) = .ok a ∧
      ∃ _ : a.toNat < 8, t.out = s.out ++ [s.regs[a.toNat]] := by
  obtain ⟨-, ⟨e, -, rfl⟩ | ⟨i, hfetched, hcase⟩⟩ := stepAt_cases h
  · cases hdone
  · obtain ⟨a, rfl⟩ := opcodeOf_eq_print_iff.mp ((hfetched.memRead_pc_iff _).mp hop)
    cases hcase with
    | printBad => cases hdone
    | print _ ha =>
      have hbyte : (operandByte a).toNat = a := operandByte_toNat (by omega)
      exact ⟨operandByte a, hfetched.memRead_byte rfl, by rwa [hbyte], by simp [hbyte]⟩

/-- A cycle that changes `out` completes and has PRINT's opcode byte at pc. -/
theorem stepAt_out_changed (h : stepAt cfg s = .next t) (hne : t.out ≠ s.out) :
    memRead cfg s.mem s.pc.toNat = .ok 0x47#8 ∧ t.fault = none := by
  obtain ⟨⟨-, hfault⟩, ⟨e, -, rfl⟩ | ⟨i, hfetched, hcase⟩⟩ := stepAt_cases h
  · exact absurd rfl hne
  · obtain hkept | ⟨a, ha, rfl, rfl⟩ := hcase.out_kept_or_print
    · exact absurd hkept hne
    · exact ⟨hfetched.memRead_pc, hfault⟩

/-- Induction along a run: a property of the first state that each performed cycle keeps holds after
any number of cycles. -/
theorem runFor_induction {P : State → Prop} {k : Nat} (h0 : P s)
    (hstep : ∀ j, j < k → ∀ t, stepAt cfg (runFor cfg j s) = .next t → P (runFor cfg j s) → P t) :
    P (runFor cfg k s) := by
  induction k with
  | zero => exact h0
  | succ k ih =>
    have hk : P (runFor cfg k s) := ih fun j hj => hstep j (by omega)
    by_cases hnext : ∃ t, stepAt cfg (runFor cfg k s) = .next t
    · obtain ⟨t, ht⟩ := hnext
      rw [runFor_succ_of_next ht]
      exact hstep k (by omega) t ht hk
    · rwa [runFor_succ_of_resting (not_exists.mp hnext)]

end Cycle

/-! ### The statements of spec/10_state.md -/

/-- Settles O7: a run keeps register `i` at 0 as long as no completed cycle names it as destination,
by `stepAt_regs_changed` in an induction along the run. -/
theorem registersReadZeroAtReset : Obligations.RegistersReadZeroAtReset := by
  refine ⟨fun i hi => by rw [readReg_of_lt _ hi, reset_regs_getElem hi],
    fun cfg program s k i hlaunch hi hunwritten => ?_⟩
  have hzero : (runFor cfg k s).regs[i] = 0#8 := by
    refine runFor_induction (P := fun u => u.regs[i] = 0#8) ?_ fun j hj t ht hprev => ?_
    · simp only [launch_regs hlaunch, reset_regs_getElem hi]
    · refine Classical.byContradiction fun hne => ?_
      obtain ⟨hdone, hwriter⟩ := stepAt_regs_changed ht hi (fun heq => hne (heq.trans hprev))
      exact hunwritten j hj t ht hdone hwriter
  rw [readReg_of_lt _ hi, hzero]

/-- Settles O41: `stepAt_run` says what a cycle does to `run`, `ExecCase.withRun` that no effect reads it. -/
theorem runFlagChangesOnlyByHalt : Obligations.RunFlagChangesOnlyByHalt := by
  refine ⟨rfl, fun cfg s t h => ?_, fun i s t r h => ((exec_cases h).withRun r).exec_next⟩
  obtain ⟨⟨hrunning, -⟩, -⟩ := stepAt_cases h
  have hrun := stepAt_run h
  refine ⟨hrunning, fun hne => ?_, fun hop => by rw [hrun, if_pos hop], fun hfault => ?_⟩
  · by_cases hop : memRead cfg s.mem s.pc.toNat = .ok 0x01#8
    · exact ⟨by rw [hrun, if_pos hop], hop⟩
    · exact absurd (hrun.trans (if_neg hop)) hne
  · obtain hdone | ⟨e, rfl⟩ := stepAt_completes_or_takeError h
    · exact absurd hdone hfault
    · exact takeError_run e s

/-- Settles O42: `stepAt_print` for the growth, `stepAt_out_changed` for the other cycles. -/
theorem outputGrowsOnlyByPrint : Obligations.OutputGrowsOnlyByPrint := by
  refine ⟨rfl, emit_out, fun cfg s t h => ⟨stepAt_print h, fun hother => ?_⟩⟩
  refine Classical.byContradiction fun hne => ?_
  obtain ⟨hop, hdone⟩ := stepAt_out_changed h hne
  exact hother.elim (absurd hop) (absurd hdone)

/-- Settles O8: pc is 0 in the reset state and in every launch state, and the fetch reads at pc. -/
theorem firstFetchIsCellZero : Obligations.FirstFetchIsCellZero :=
  ⟨rfl, fun cfg => fetchOpcode_of_pc_zero cfg rfl,
    fun cfg _ _ h => ⟨launch_pc h, fetchOpcode_of_pc_zero cfg (launch_pc h)⟩⟩

/-- Settles O13, by the two cases of the register read. -/
theorem registerReadIsChecked : Obligations.RegisterReadIsChecked :=
  fun regs _ => ⟨readReg_of_lt regs, readReg_of_ge regs⟩

end Sys2Proof.Machine
end

section
namespace Sys2Proof.Machine

/-! ### The statements of spec/20_memory.md -/

/-- Settles O10, by the two outcomes of the memory port's read. -/
theorem memReadIsChecked : Obligations.MemReadIsChecked :=
  fun cfg m a => ⟨fun hin => (memRead_eq_ok_iff cfg m a _).mpr ⟨hin, rfl⟩,
    fun hout => (memRead_eq_error_iff cfg m a _).mpr ⟨hout, rfl⟩⟩

end Sys2Proof.Machine
end

section
/-! SUPPORT. The fields of an opcode byte as numbers, and the bytes that select no operation
(spec/30_encoding.md R81, R82, R86). -/

namespace Sys2Proof

theorem opcodeWidth_eq (b : Byte) : opcodeWidth b = b.toNat / 64 + 1 := by
  have hmask : b.toNat / 64 &&& 3 = b.toNat / 64 % 4 := Nat.and_two_pow_sub_one_eq_mod _ 2
  have hlt : b.toNat < 256 := b.isLt
  simp only [opcodeWidth, BitVec.toNat_and, BitVec.toNat_ushiftRight, Nat.shiftRight_eq_div_pow]
  show (b.toNat / 64 &&& 3) + 1 = _
  omega

theorem decodeOpcode_cnt_toNat (b : Byte) : (decodeOpcode b).cnt.toNat = b.toNat / 64 := by
  have hlt : b.toNat < 256 := b.isLt
  simp only [decodeOpcode, BitVec.extractLsb'_toNat, Nat.shiftRight_eq_div_pow]
  omega

theorem decodeOperation_eq_unknown_iff (b : Byte) :
    decodeOperation b = .unknown ↔ b ∉ [0x00#8, 0x01#8, 0x47#8, 0x82#8, 0xA2#8] := by
  constructor
  · intro hop hmem
    have hdefined : ∀ c ∈ [0x00#8, 0x01#8, 0x47#8, 0x82#8, 0xA2#8], decodeOperation c ≠ .unknown := by decide
    exact hdefined b hmem hop
  · intro hmem
    simp only [List.mem_cons, List.not_mem_nil, or_false, not_or] at hmem
    obtain ⟨h00, h01, h47, h82, hA2⟩ := hmem
    simp only [decodeOperation, if_neg h00, if_neg h01, if_neg h47, if_neg h82, if_neg hA2]

/-- Every reference bit pattern is below 0xC0. -/
theorem decodeOperation_eq_unknown_of_le {b : Byte} (h : 192 ≤ b.toNat) : decodeOperation b = .unknown := by
  have hbelow : ∀ c ∈ [0x00#8, 0x01#8, 0x47#8, 0x82#8, 0xA2#8], c.toNat < 192 := by decide
  exact (decodeOperation_eq_unknown_iff b).mpr fun hmem => absurd (hbelow b hmem) (by omega)

end Sys2Proof
end

section
/-! SUPPORT. What the opcode byte at pc says of a cycle: how far pc goes, and that a byte that selects
no operation is fatal (spec/30_encoding.md R82, R86; spec/60_exceptions.md R163). -/

namespace Sys2Proof.Machine

section
variable {cfg : Config} {s t : State} {i : Instr}

theorem Fetched.cell_pc (h : Fetched cfg s i) : cell s.mem s.pc.toNat = opcodeOf i :=
  ((memRead_eq_ok_iff ..).mp h.memRead_pc).2

/-- An effect either ends in the advance by the instruction's width or is a taken error. -/
theorem ExecCase.pc_advanced_or_takeError (h : ExecCase s i t) :
    t.pc = s.pc + BitVec.ofNat 8 (instrWidth i) ∨ ∃ e, t = takeError e s := by
  cases h with
  | noOp | halt | print | load | mul => exact .inl (by simp)
  | printBad | loadBad | mulBadA | mulBadB => exact .inr ⟨_, rfl⟩

/-- A completed cycle advances pc by the width of the opcode byte at pc. -/
theorem stepAt_pc_of_completed (h : stepAt cfg s = .next t) (hdone : t.fault = none) :
    t.pc = s.pc + BitVec.ofNat 8 (opcodeWidth (cell s.mem s.pc.toNat)) := by
  obtain ⟨-, ⟨e, -, rfl⟩ | ⟨i, hfetched, hcase⟩⟩ := stepAt_cases h
  · cases hdone
  · obtain hpc | ⟨e, rfl⟩ := hcase.pc_advanced_or_takeError
    · rw [hpc, hfetched.cell_pc, instrWidth]
    · cases hdone

/-- No instruction is fetched from an unknown opcode byte, so a cycle there takes an error. -/
theorem stepAt_takeError_of_unknown (h : stepAt cfg s = .next t)
    (hop : decodeOperation (cell s.mem s.pc.toNat) = .unknown) : ∃ e, t = takeError e s := by
  obtain ⟨-, ⟨e, -, rfl⟩ | ⟨i, hfetched, -⟩⟩ := stepAt_cases h
  · exact ⟨e, rfl⟩
  · rw [hfetched.cell_pc] at hop
    exact absurd hop (decodeOperation_opcodeOf i)

/-- An unknown opcode byte is reported from the byte alone: no operand byte is read. -/
theorem fetch_of_unknown {opcode : Byte} (hread : memRead cfg s.mem s.pc.toNat = .ok opcode)
    (hop : decodeOperation opcode = .unknown) : fetch cfg s = .error (.unknownInstruction opcode s.pc) := by
  have hfetch : fetch cfg s = fetchOperands cfg s opcode (decodeOperation opcode) := by
    rw [fetch, fetchOpcode, hread]
    rfl
  rw [hfetch, hop, fetchOperands]

theorem restReason_takeError (e : FatalError) (s : State) : restReason (takeError e s) = some (.crashed e) := rfl

end

/-! ### The statements of spec/30_encoding.md -/

/-- Settles O5: the two fields of the opcode byte as numbers, then `stepAt_pc_of_completed` and
`stepAt_takeError_of_unknown` for pc. -/
theorem widthFormulaAdvancesPc : Obligations.WidthFormulaAdvancesPc := by
  refine ⟨opcodeWidth_eq, by decide, fun b hcnt => ?_, fun cfg s t => stepAt_pc_of_completed,
    fun cfg s t h hop => ?_⟩
  · have hquot : b.toNat / 64 = 3 := by rw [← decodeOpcode_cnt_toNat, hcnt]; rfl
    exact ⟨by rw [decodeOpcode_width, opcodeWidth_eq, hquot], decodeOperation_eq_unknown_of_le (by omega)⟩
  · obtain ⟨e, rfl⟩ := stepAt_takeError_of_unknown h hop
    exact takeError_pc e s

/-- Settles O31: the fetch reports the byte and pc, the cycle takes that error, and a state with a latched
error rests. -/
theorem unknownOpcodesAreFatal : Obligations.UnknownOpcodesAreFatal := by
  intro cfg s opcode henabled hread hother
  have hfetch := fetch_of_unknown hread ((decodeOperation_eq_unknown_iff opcode).mpr hother)
  refine ⟨?_, stepAt_of_resting cfg (restReason_takeError _ s)⟩
  rw [stepAt_of_enabled cfg henabled, hfetch]
  rfl

end Sys2Proof.Machine
end

section
/-! SUPPORT. How a cycle and a run end: with `run` still RUNNING or the latch empty, never both halted and
faulted; and what a raised error says of pc (spec/40_cycle.md R101, R108, R110). -/

namespace Sys2Proof.Machine

section
variable {cfg : Config} {s t : State} {i : Instr}

/-- Where no opcode byte can be read at pc, the fetch reports that address. -/
theorem fetch_of_pc_ge (h : cfg.memSize ≤ s.pc.toNat) : fetch cfg s = .error (.outOfBounds s.pc.toNat) := by
  have hread := (memRead_eq_error_iff cfg s.mem s.pc.toNat _).mpr ⟨h, rfl⟩
  rw [fetch, fetchOpcode, hread]
  rfl

/-- No cycle ends both halted and with an error (60_exceptions.md R169). -/
theorem stepAt_running_or_fault_none (h : stepAt cfg s = .next t) : t.run = .running ∨ t.fault = none := by
  obtain ⟨⟨hrunning, -⟩, -⟩ := stepAt_cases h
  obtain hdone | ⟨e, rfl⟩ := stepAt_completes_or_takeError h
  · exact .inr hdone
  · exact .inl hrunning

/-- No run from an enabled state ends both halted and with an error. -/
theorem runFor_running_or_fault_none (k : Nat) (h : s.enabled) :
    (runFor cfg k s).run = .running ∨ (runFor cfg k s).fault = none :=
  have ⟨hrunning, _⟩ := h
  runFor_induction (P := fun u => u.run = .running ∨ u.fault = none) (.inl hrunning)
    fun _ _ _ ht _ => stepAt_running_or_fault_none ht

/-- Where halted and faulted exclude each other, a latched error is a crash. -/
theorem exists_crashedWith_iff (h : s.run = .running ∨ s.fault = none) :
    (∃ e, s.crashedWith e) ↔ s.fault ≠ none := by
  constructor
  · rintro ⟨e, -, hfault⟩ hnone
    rw [hfault] at hnone
    cases hnone
  · intro hfault
    obtain ⟨e, he⟩ := Option.ne_none_iff_exists'.mp hfault
    exact ⟨e, h.resolve_right hfault, he⟩

/-- A cycle ends in a clean halt exactly where HALT's opcode byte stands at pc. -/
theorem stepAt_cleanHalt_iff (h : stepAt cfg s = .next t) :
    t.cleanHalt ↔ memRead cfg s.mem s.pc.toNat = .ok 0x01#8 := by
  obtain ⟨⟨hrunning, -⟩, -⟩ := stepAt_cases h
  have hrun := stepAt_run h
  constructor
  · rintro ⟨hhalted, -⟩
    refine Classical.byContradiction fun hop => ?_
    rw [if_neg hop, hrunning, hhalted] at hrun
    cases hrun
  · intro hop
    rw [if_pos hop] at hrun
    exact ⟨hrun, (stepAt_running_or_fault_none h).resolve_left (by simp [hrun])⟩

/-- A cycle that ends with an error latched leaves pc as it was. -/
theorem stepAt_pc_of_fault {e : FatalError} (h : stepAt cfg s = .next t) (hfault : t.fault = some e) :
    t.pc = s.pc := by
  obtain hdone | ⟨e', rfl⟩ := stepAt_completes_or_takeError h
  · rw [hdone] at hfault
    cases hfault
  · exact takeError_pc e' s

/-- An effect never reports an unknown instruction: the only errors it takes are register indices. -/
theorem ExecCase.fault_ne_unknownInstruction {opcode : Byte} {p : Address} (h : ExecCase s i t)
    (hs : s.fault = none) : t.fault ≠ some (.unknownInstruction opcode p) := by
  cases h with
  | noOp | halt | print | load | mul => simp [hs]
  | printBad | loadBad | mulBadA | mulBadB => simp

/-- An unknown instruction is reported by the fetch, with the pc it was fetched at. -/
theorem stepAt_unknownInstruction_pc {opcode : Byte} {p : Address} (h : stepAt cfg s = .next t)
    (hfault : t.fault = some (.unknownInstruction opcode p)) : p = s.pc := by
  obtain ⟨⟨-, hnone⟩, ⟨e, herr, rfl⟩ | ⟨i, -, hcase⟩⟩ := stepAt_cases h
  · rw [takeError_fault] at hfault
    cases hfault
    cases herr
    rfl
  · exact absurd hfault (hcase.fault_ne_unknownInstruction hnone)

/-- A HALT that completes leaves pc at the address after its byte; at most 253 cells, so no wrap. -/
theorem stepAt_pc_of_cleanHalt (hwf : cfg.wf) (h : stepAt cfg s = .next t) (hhalt : t.cleanHalt) :
    t.pc.toNat = s.pc.toNat + 1 := by
  obtain ⟨hin, hcell⟩ := (memRead_eq_ok_iff ..).mp ((stepAt_cleanHalt_iff h).mp hhalt)
  obtain ⟨-, hdone⟩ := hhalt
  obtain ⟨-, hmax⟩ := hwf
  have hwidth : opcodeWidth 0x01#8 = 1 := by decide
  have hpc := stepAt_pc_of_completed h hdone
  rw [hcell, hwidth] at hpc
  rw [hpc]
  bv_omega

end

/-! ### The statements of spec/40_cycle.md -/

/-- Settles O46: a cycle halts exactly on HALT's byte, and no run is ever both halted and faulted, so a
resting one is in one of the two conditions and its latch says which. -/
theorem runEndsInHaltOrCrash : Obligations.RunEndsInHaltOrCrash := by
  refine ⟨fun cfg s t h => ⟨stepAt_cleanHalt_iff h, exists_crashedWith_iff (stepAt_running_or_fault_none h)⟩,
    fun cfg k s henabled hrest => ?_⟩
  have hinv := runFor_running_or_fault_none (cfg := cfg) k henabled
  rw [exists_crashedWith_iff hinv]
  by_cases hfault : (runFor cfg k s).fault = none
  · have hhalted : (runFor cfg k s).run = .halted := by
      cases hrun : (runFor cfg k s).run with
      | halted => rfl
      | running => exact absurd ⟨hrun, hfault⟩ hrest
    exact .inl ⟨⟨hhalted, hfault⟩, absurd hfault⟩
  · exact .inr ⟨hfault, fun ⟨_, hnone⟩ => hfault hnone⟩

/-- Settles O47: pc after the HALT byte, pc where the error was raised, and the pc an unknown instruction
records. -/
theorem finalPc : Obligations.FinalPc := by
  intro cfg s t hwf h
  refine ⟨fun hhalt => ⟨(stepAt_cleanHalt_iff h).mp hhalt, stepAt_pc_of_cleanHalt hwf h hhalt⟩,
    fun e ⟨_, hfault⟩ => stepAt_pc_of_fault h hfault, fun opcode p ⟨_, hfault⟩ => ?_⟩
  rw [stepAt_unknownInstruction_pc h hfault, stepAt_pc_of_fault h hfault]

/-- Settles O35: the memory port answers the cell at pc, and beyond memory the fetch's error is taken. -/
theorem fetchIsCheckedAtPc : Obligations.FetchIsCheckedAtPc := by
  refine fun cfg s henabled => ⟨fun hin => (memRead_eq_ok_iff ..).mpr ⟨hin, rfl⟩, fun hout => ?_⟩
  rw [stepAt_of_enabled cfg henabled, fetch_of_pc_ge hout]
  rfl

end Sys2Proof.Machine
end

section
/-! SUPPORT. A cycle of a NO_OP and of a HALT, the cycle at the end of memory, and a row of NO_OPs
(spec/40_cycle.md R101, R103, R104). -/

namespace Sys2Proof.Machine

/-! ### The advance of pc -/

section
variable (s : State)

theorem advance_zero : advance 0 s = s := by
  simp [advance]

theorem advance_advance (j k : Nat) : advance j (advance k s) = advance (k + j) s := by
  simp [advance, BitVec.ofNat_add, BitVec.add_assoc]

variable {s}

theorem advance_pc_toNat {k : Nat} (h : s.pc.toNat + k < 256) : (advance k s).pc.toNat = s.pc.toNat + k := by
  rw [advance_pc]
  bv_omega

/-- An advance as far as address `n` leaves the state as it was but for pc, which holds `n`. -/
theorem advance_sub {n : Nat} (h : s.pc.toNat ≤ n) :
    advance (n - s.pc.toNat) s = { s with pc := BitVec.ofNat 8 n } := by
  have hpc : s.pc + BitVec.ofNat 8 (n - s.pc.toNat) = BitVec.ofNat 8 n := by
    apply BitVec.eq_of_toNat_eq
    simp [Nat.add_sub_cancel' h]
  rw [advance, hpc]

theorem advance_enabled (k : Nat) (h : s.enabled) : (advance k s).enabled := h

end

/-! ### Single cycles -/

section
variable {cfg : Config} {s : State}

/-- A readable opcode byte leaves the rest of the fetch to the operation it selects. -/
theorem fetch_of_memRead {opcode : Byte} (hread : memRead cfg s.mem s.pc.toNat = .ok opcode) :
    fetch cfg s = fetchOperands cfg s opcode (decodeOperation opcode) := by
  rw [fetch, fetchOpcode, hread]
  rfl

/-- In an enabled state a fetched instruction is run. -/
theorem stepAt_of_fetch {i : Instr} (henabled : s.enabled) (hfetch : fetch cfg s = .ok i) :
    stepAt cfg s = exec i s := by
  rw [stepAt_of_enabled cfg henabled, hfetch]

theorem stepAt_noOp (henabled : s.enabled) (hread : memRead cfg s.mem s.pc.toNat = .ok 0x00#8) :
    stepAt cfg s = .next (advance 1 s) := by
  have hfetch : fetch cfg s = .ok .noOp := fetch_of_memRead hread
  rw [stepAt_of_fetch henabled hfetch, ExecCase.noOp.exec_next]

theorem stepAt_halt (henabled : s.enabled) (hread : memRead cfg s.mem s.pc.toNat = .ok 0x01#8) :
    stepAt cfg s = .next (advance 1 { s with run := .halted }) := by
  have hfetch : fetch cfg s = .ok .halt := fetch_of_memRead hread
  rw [stepAt_of_fetch henabled hfetch, ExecCase.halt.exec_next]

/-- At the end of memory, pc = N, the cycle takes OutOfBounds(N). -/
theorem stepAt_of_pc_eq (henabled : s.enabled) (hpc : s.pc.toNat = cfg.memSize) :
    stepAt cfg s = .next (takeError (.outOfBounds cfg.memSize) s) := by
  have ⟨_, hout⟩ := fetchIsCheckedAtPc cfg s henabled
  rw [hout hpc.ge, hpc]
  rfl

theorem restReason_of_cleanHalt (h : s.cleanHalt) : restReason s = some .halted := by
  obtain ⟨hhalted, hfault⟩ := h
  simp only [restReason, hhalted, hfault]

/-- A row of `k` zero cells from pc on is `k` NO_OPs: they advance pc and change nothing else. -/
theorem runFor_zeroCells (hwf : cfg.wf) (henabled : s.enabled) (k : Nat) (hfit : s.pc.toNat + k ≤ cfg.memSize)
    (hzero : ∀ a, s.pc.toNat ≤ a → a < cfg.memSize → memRead cfg s.mem a = .ok 0x00#8) :
    runFor cfg k s = advance k s := by
  induction k with
  | zero => rw [runFor_zero, advance_zero]
  | succ k ih =>
    obtain ⟨-, hmax⟩ := hwf
    have hpc : (advance k s).pc.toNat = s.pc.toNat + k := advance_pc_toNat (by omega)
    have hread : memRead cfg (advance k s).mem (advance k s).pc.toNat = .ok 0x00#8 := by
      rw [hpc, advance_mem]
      exact hzero _ (by omega) (by omega)
    have hstep : stepAt cfg (runFor cfg k s) = .next (advance 1 (advance k s)) := by
      rw [ih (by omega)]
      exact stepAt_noOp (advance_enabled k henabled) hread
    rw [runFor_succ_of_next hstep, advance_advance]

end

/-! ### The statements of spec/41_system.md -/

/-- Settles O26: HALT's cycle ends in a clean halt, which rests; conversely only HALT's byte ends a cycle
halted. -/
theorem haltCycleStopsTheMachine : Obligations.HaltCycleStopsTheMachine := by
  refine fun cfg s henabled => ⟨fun hread => ⟨stepAt_halt henabled hread, ?_, fun hwf => ?_⟩,
    fun t h hhalted => ?_⟩
  · have ⟨_, hfault⟩ := henabled
    exact stepAt_of_resting cfg (restReason_of_cleanHalt ⟨rfl, hfault⟩)
  · obtain ⟨hin, -⟩ := (memRead_eq_ok_iff ..).mp hread
    obtain ⟨-, hmax⟩ := hwf
    exact advance_pc_toNat (by omega)
  · have hfault : t.fault = none := (stepAt_running_or_fault_none h).resolve_left (by simp [hhalted])
    exact (stepAt_cleanHalt_iff h).mp ⟨hhalted, hfault⟩

/-- Settles O27: NO_OP's cycle only advances pc, `runFor_zeroCells` repeats it up to pc = N, and there the
next cycle takes OutOfBounds(N). -/
theorem noOpCyclesSlideToTheEnd : Obligations.NoOpCyclesSlideToTheEnd := by
  intro cfg s hwf henabled
  have ⟨_, hmax⟩ := hwf
  refine ⟨fun hread => ⟨stepAt_noOp henabled hread, fun hlast => ?_⟩, fun hle hzero => ?_⟩
  · have hpc : (advance 1 s).pc.toNat = cfg.memSize := by rw [advance_pc_toNat (by omega), hlast]
    exact stepAt_of_pc_eq (advance_enabled 1 henabled) hpc
  · have hslide := runFor_zeroCells hwf henabled (cfg.memSize - s.pc.toNat) (by omega) hzero
    have hpc : (advance (cfg.memSize - s.pc.toNat) s).pc.toNat = cfg.memSize := by
      rw [advance_pc_toNat (by omega)]
      omega
    have hend := stepAt_of_pc_eq (advance_enabled _ henabled) hpc
    rw [← hslide] at hend
    rw [runFor_succ_of_next hend, hslide, advance_sub hle]
    exact ⟨rfl, rfl⟩

end Sys2Proof.Machine
end

section
/-! SUPPORT. A cycle of a PRINT: the read of its operand byte and of the register it names
(spec/42_move_output.md R131). -/

namespace Sys2Proof.Machine

section
variable {cfg : Config} {s : State}

/-- In an enabled state a failed fetch is taken as the cycle's error. -/
theorem stepAt_of_fetch_error {e : FatalError} (henabled : s.enabled) (hfetch : fetch cfg s = .error e) :
    stepAt cfg s = .next (takeError e s) := by
  rw [stepAt_of_enabled cfg henabled, hfetch]

theorem fetchOperandA_of_lt (h : s.pc.toNat + 1 < cfg.memSize) :
    fetchOperandA cfg s = .ok (cell s.mem (s.pc.toNat + 1)) :=
  (memRead_eq_ok_iff ..).mpr ⟨h, rfl⟩

theorem fetchOperandA_of_ge (h : cfg.memSize ≤ s.pc.toNat + 1) :
    fetchOperandA cfg s = .error (.outOfBounds (s.pc.toNat + 1)) :=
  (memRead_eq_error_iff ..).mpr ⟨h, rfl⟩

/-- PRINT's byte at pc with its operand byte inside memory is fetched as PRINT of that index. -/
theorem fetch_print (hread : memRead cfg s.mem s.pc.toNat = .ok 0x47#8) (h : s.pc.toNat + 1 < cfg.memSize) :
    fetch cfg s = .ok (.print (cell s.mem (s.pc.toNat + 1)).toNat) := by
  have hop : decodeOperation 0x47#8 = .print := by decide
  rw [fetch_of_memRead hread, hop, fetchOperands, fetchOperandA_of_lt h]
  rfl

/-- PRINT's byte in the last cell: the missing operand byte is what the fetch reports. -/
theorem fetch_print_missingOperand (hread : memRead cfg s.mem s.pc.toNat = .ok 0x47#8)
    (h : cfg.memSize ≤ s.pc.toNat + 1) : fetch cfg s = .error (.outOfBounds (s.pc.toNat + 1)) := by
  have hop : decodeOperation 0x47#8 = .print := by decide
  rw [fetch_of_memRead hread, hop, fetchOperands, fetchOperandA_of_ge h]
  rfl

end

/-! ### The statement of spec/42_move_output.md -/

/-- Settles O28: the operand byte is missing, or it is fetched and PRINT's effect either emits the register
it names or takes its index as out of bounds. -/
theorem printCycle : Obligations.PrintCycle := by
  intro cfg s henabled hread a
  split
  next hmissing => exact stepAt_of_fetch_error henabled (fetch_print_missingOperand hread hmissing)
  next hpresent =>
    rw [stepAt_of_fetch henabled (fetch_print hread (Nat.not_le.mp hpresent))]
    split
    next ha => exact (ExecCase.print a ha).exec_next
    next ha => exact (ExecCase.printBad a (Nat.not_lt.mp ha)).exec_next

end Sys2Proof.Machine
end

section
/-! SUPPORT. Which errors the ALU, a fetch and an effect can report, and that a state with no cycle enabled
stays as it is (spec/60_exceptions.md R161, R162, R168). -/

namespace Sys2Proof.Machine

section Alu
variable {op tag : AluOp} (d s : Nat) (regs : RegFile)

/-- An implemented tag passes the tag check: such a call can only fail on a register index. -/
theorem aluApply_ne_unsupportedOperation {f : Word → Word → Nat} (hop : aluFunction op = .ok f) :
    aluApply op d s regs ≠ .error (.unsupportedOperation tag) := by
  by_cases hd : d < 8
  · by_cases hs : s < 8
    · simp [aluApply_of_lt regs hop hd hs]
    · simp [aluApply_bad_operand regs hop hd (Nat.not_lt.mp hs)]
  · simp [aluApply_bad_dest regs s hop (Nat.not_lt.mp hd)]

/-- Any other tag is rejected before a register is looked at, with itself as the payload. -/
theorem aluApply_other (n : Nat) :
    aluApply (.other n) d s regs = .error (.unsupportedOperation (.other n)) := rfl

theorem aluApply_eq_unsupportedOperation_iff :
    aluApply op d s regs = .error (.unsupportedOperation tag) ↔ tag = op ∧ op ≠ .add ∧ op ≠ .multiply := by
  cases op with
  | add => simp [aluApply_ne_unsupportedOperation d s regs (op := .add) rfl]
  | multiply => simp [aluApply_ne_unsupportedOperation d s regs (op := .multiply) rfl]
  | other n => simp [aluApply_other, eq_comm]

end Alu

section
variable {cfg : Config} {s t : State} {i : Instr}

/-- The only error an effect takes is an out-of-range register index. -/
theorem ExecCase.fault_kept_or_outOfBounds (h : ExecCase s i t) :
    t.fault = s.fault ∨ ∃ v, 8 ≤ v ∧ t.fault = some (.outOfBounds v) := by
  cases h with
  | noOp | halt | print | load | mul => exact .inl rfl
  | printBad v hv | loadBad v _ hv | mulBadA v _ hv | mulBadB _ v _ hv => exact .inr ⟨v, hv, rfl⟩

theorem FetchError.ne_unsupportedOperation {e : FatalError} (h : FetchError cfg s e) (tag : AluOp) :
    e ≠ .unsupportedOperation tag := by
  cases h <;> simp

/-- No cycle latches the ALU's rejection (60_exceptions.md R162). -/
theorem stepAt_fault_ne_unsupportedOperation (h : stepAt cfg s = .next t) (tag : AluOp) :
    t.fault ≠ some (.unsupportedOperation tag) := by
  obtain ⟨⟨-, hnone⟩, ⟨e, herr, rfl⟩ | ⟨i, -, hcase⟩⟩ := stepAt_cases h
  · simpa using herr.ne_unsupportedOperation tag
  · obtain hkept | ⟨v, -, hlatched⟩ := hcase.fault_kept_or_outOfBounds
    · simp [hkept, hnone]
    · simp [hlatched]

theorem stepAt_ne_next_of_not_enabled (h : ¬ s.enabled) (t : State) : stepAt cfg s ≠ .next t := fun hnext =>
  have ⟨henabled, _⟩ := stepAt_cases hnext
  h henabled

theorem runFor_of_not_enabled (k : Nat) (h : ¬ s.enabled) : runFor cfg k s = s := by
  refine runFor_induction (P := fun u => u = s) rfl fun j _ t hnext hstay => ?_
  rw [hstay] at hnext
  exact absurd hnext (stepAt_ne_next_of_not_enabled h t)

end

/-! ### The statements of spec/60_exceptions.md -/

/-- Settles O17: the tag check decides the ALU's rejection, and a cycle latches only what its fetch or its
effect reports, neither of which is that rejection. -/
theorem unsupportedOperationIsUnreachable : Obligations.UnsupportedOperationIsUnreachable :=
  ⟨fun _ _ d s regs => aluApply_eq_unsupportedOperation_iff d s regs,
    fun _ _ _ tag h => stepAt_fault_ne_unsupportedOperation h tag⟩

/-- Settles O44: a step that answers a next state began in an enabled one, so a run goes nowhere from a
state that is not enabled. -/
theorem restingStatesStay : Obligations.RestingStatesStay :=
  fun _ k _ h => ⟨runFor_of_not_enabled k h, stepAt_ne_next_of_not_enabled h⟩

end Sys2Proof.Machine
end

section
/-! SUPPORT. A load that fits, and what the loaded cells read as when memory was empty before
(spec/20_memory.md R53, spec/10_state.md R36). -/

namespace Sys2Proof.Machine

theorem memLoad_of_le {cfg : Config} (m : Memory) {bytes : List Byte} {start : Nat}
    (h : start + bytes.length ≤ cfg.memSize) : memLoad cfg m bytes start = .ok (setCells m start bytes) :=
  if_neg (Nat.not_lt.mpr h)

/-- A program of at most N bytes launches: only the memory differs from the reset state's. -/
theorem launch_of_le {cfg : Config} {program : List Byte} (h : program.length ≤ cfg.memSize) :
    launch cfg program = .ok { State.reset with mem := setCells State.reset.mem 0 program } := by
  have hfit : 0 + program.length ≤ cfg.memSize := by rwa [Nat.zero_add]
  rw [launch, memLoad_of_le _ hfit]
  rfl

/-- Bytes placed from address 0 of the reset memory on are followed by zeros. -/
theorem cell_setCells_reset (bytes : List Byte) (a : Nat) :
    cell (setCells State.reset.mem 0 bytes) a = bytes.getD a 0#8 := by
  obtain ⟨hwf, -⟩ := reset_mem_wf
  obtain hin | hout := Nat.lt_or_ge a bytes.length
  · have hcell := cell_setCells_inside State.reset.mem 0 bytes hwf a hin
    rw [Nat.zero_add] at hcell
    rw [hcell, List.getD_eq_getElem bytes 0#8 hin]
  · rw [cell_setCells_outside State.reset.mem 0 bytes a (.inr (by omega)), List.getD_eq_default bytes 0#8 hout]
    rfl

/-! ### The statement of spec/70_reset_and_hazards.md -/

/-- Settles O9: the launch loads the program into the reset memory, whose cells `cell_setCells_reset` gives,
and keeps every other field of the reset state. -/
theorem launchStateIsProgramThenZeros : Obligations.LaunchStateIsProgramThenZeros :=
  fun _ program hfit => ⟨_, launch_of_le hfit,
    fun a hin => (memRead_eq_ok_iff ..).mpr ⟨hin, cell_setCells_reset program a⟩,
    fun _ hi => reset_regs_getElem hi, rfl, rfl, rfl, rfl⟩

end Sys2Proof.Machine
end

section
/-! SUPPORT. The decoder and the encoder invert each other: one spec lemma for the decoder, and the encoding
as a byte list (spec/30_encoding.md R80 to R89). -/

namespace Sys2Proof

/-- The encoder's bytes decode to the instruction, whatever follows them. -/
theorem decode_encode_append {i : Instr} (rest : List Byte) (h : i.wellFormed = true) :
    decode (encode i ++ rest) = .ok (i, rest) := by
  cases i with
  | noOp | halt => rfl
  | print a =>
    have ha : a < 256 := (fitsOperandByte_iff a).mp h
    show Except.ok (Instr.print (operandByte a).toNat, rest) = _
    rw [operandByte_toNat ha]
  | loadImmediate a b =>
    have ha : a < 256 := (fitsOperandByte_iff a).mp h
    show Except.ok (Instr.loadImmediate (operandByte a).toNat b, rest) = _
    rw [operandByte_toNat ha]
  | multiply a b =>
    obtain ⟨ha, hb⟩ : a < 256 ∧ b < 256 := by
      simpa only [Instr.wellFormed, Bool.and_eq_true, fitsOperandByte_iff] using h
    show Except.ok (Instr.multiply (operandByte a).toNat (operandByte b).toNat, rest) = _
    rw [operandByte_toNat ha, operandByte_toNat hb]

theorem decode_encode {i : Instr} (h : i.wellFormed = true) : decode (encode i) = .ok (i, []) := by
  simpa using decode_encode_append [] h

/-- Each well-formed instruction has its own encoding. -/
theorem encode_injective {i j : Instr} (hi : i.wellFormed = true) (hj : j.wellFormed = true)
    (h : encode i = encode j) : i = j := by
  have hdecode := decode_encode hi
  rw [h, decode_encode hj] at hdecode
  cases hdecode
  rfl

theorem encode_length (i : Instr) : (encode i).length = instrWidth i := by
  cases i <;> simp [encode]

theorem fitsOperandByte_toNat (b : Byte) : fitsOperandByte b.toNat = true :=
  (fitsOperandByte_iff _).mpr b.isLt

/-- What a failed decoding reports, in the order of the checks. -/
inductive DecodeFails : List Byte → DecodeError → Prop where
  | noOpcode : DecodeFails [] .noOpcode
  | unknownOpcode (opcode : Byte) (tail : List Byte) (hop : decodeOperation opcode = .unknown) :
      DecodeFails (opcode :: tail) (.unknownOpcode opcode)
  | missingOperand (opcode : Byte) (tail : List Byte) (k : Nat) (hdef : decodeOperation opcode ≠ .unknown)
      (hshort : (opcode :: tail).length < opcodeWidth opcode) : DecodeFails (opcode :: tail) (.missingOperand k)

/-- One spec lemma for the decoder: it answers a well-formed instruction whose encoding it has read, or
reports the first failed check. -/
theorem decode_cases (bytes : List Byte) :
    (∃ i rest, decode bytes = .ok (i, rest) ∧ i.wellFormed = true ∧ encode i ++ rest = bytes) ∨
      (∃ e, decode bytes = .error e ∧ DecodeFails bytes e) := by
  cases bytes with
  | nil => exact .inr ⟨_, rfl, .noOpcode⟩
  | cons opcode tail =>
    cases hop : decodeOperation opcode with
    | unknown =>
      refine .inr ⟨.unknownOpcode opcode, ?_, .unknownOpcode opcode tail hop⟩
      simp only [decode, decodeOpcode_op, hop]
    | noOp =>
      obtain rfl := decodeOperation_eq_noOp hop
      exact .inl ⟨.noOp, tail, rfl, rfl, rfl⟩
    | halt =>
      obtain rfl := decodeOperation_eq_halt hop
      exact .inl ⟨.halt, tail, rfl, rfl, rfl⟩
    | print =>
      obtain rfl := decodeOperation_eq_print hop
      match tail with
      | [] => exact .inr ⟨_, rfl, .missingOperand _ _ 1 (by decide) (by decide)⟩
      | a :: rest =>
        exact .inl ⟨.print a.toNat, rest, rfl, fitsOperandByte_toNat a, by simp [encode, opcodeOf]⟩
    | loadImmediate =>
      obtain rfl := decodeOperation_eq_loadImmediate hop
      match tail with
      | [] => exact .inr ⟨_, rfl, .missingOperand _ _ 1 (by decide) (by decide)⟩
      | [a] => exact .inr ⟨_, rfl, .missingOperand _ _ 2 (by decide) (show 2 < opcodeWidth 0x82#8 by decide)⟩
      | a :: b :: rest =>
        exact .inl ⟨.loadImmediate a.toNat b, rest, rfl, fitsOperandByte_toNat a, by simp [encode, opcodeOf]⟩
    | multiply =>
      obtain rfl := decodeOperation_eq_multiply hop
      match tail with
      | [] => exact .inr ⟨_, rfl, .missingOperand _ _ 1 (by decide) (by decide)⟩
      | [a] => exact .inr ⟨_, rfl, .missingOperand _ _ 2 (by decide) (show 2 < opcodeWidth 0xA2#8 by decide)⟩
      | a :: b :: rest =>
        refine .inl ⟨.multiply a.toNat b.toNat, rest, rfl, ?_, by simp [encode, opcodeOf]⟩
        simp only [Instr.wellFormed, fitsOperandByte_toNat, Bool.and_self]

theorem encode_of_decode {bytes rest : List Byte} {i : Instr} (h : decode bytes = .ok (i, rest)) :
    i.wellFormed = true ∧ encode i ++ rest = bytes := by
  obtain ⟨j, rest', hj, hread⟩ | ⟨e, he, -⟩ := decode_cases bytes
  · rw [h] at hj
    cases hj
    exact hread
  · rw [h] at he
    cases he

theorem decodeFails_of_decode {bytes : List Byte} {e : DecodeError} (h : decode bytes = .error e) :
    DecodeFails bytes e := by
  obtain ⟨j, rest', hj, -⟩ | ⟨e', he, hfails⟩ := decode_cases bytes
  · rw [h] at hj
    cases hj
  · rw [h] at he
    cases he
    exact hfails

theorem decodeOpcode_b5_toNat (b : Byte) : (decodeOpcode b).b5.toNat = b.toNat / 32 % 2 := by
  simp [decodeOpcode, BitVec.extractLsb'_toNat, Nat.shiftRight_eq_div_pow]

theorem decodeOpcode_opid_toNat (b : Byte) : (decodeOpcode b).opid.toNat = b.toNat % 32 := by
  simp [decodeOpcode, BitVec.extractLsb'_toNat]

/-! ### The statements of spec/30_encoding.md, sections 1 to 4 -/

/-- Settles O1: the opcode byte selects the instruction's operation, and each operand that fits its byte is
read back from it. -/
theorem decodeInvertsEncode : Obligations.DecodeInvertsEncode :=
  fun _ rest h => decode_encode_append rest h

/-- Settles O2, by the spec lemma of the decoder. -/
theorem encodeInvertsDecode : Obligations.EncodeInvertsDecode :=
  fun _ _ _ h => encode_of_decode h

/-- Settles O3: the five words are encodings, and 11111111 selects no operation. -/
theorem referenceBitPatternsDecode : Obligations.ReferenceBitPatternsDecode :=
  ⟨decode_encode (i := .noOp) rfl, decode_encode (i := .halt) rfl, decode_encode (i := .print 0) rfl,
    decode_encode (i := .loadImmediate 1 9#8) rfl, decode_encode (i := .multiply 0 1) rfl, by decide⟩

/-- Settles O4: the three fields as numbers recompose the byte, and each operation is selected by its one
reference bit pattern. -/
theorem decoderOutputsOnEveryByte : Obligations.DecoderOutputsOnEveryByte := by
  intro b
  have hcnt := decodeOpcode_cnt_toNat b
  have hb5 := decodeOpcode_b5_toNat b
  have hopid := decodeOpcode_opid_toNat b
  refine ⟨hcnt, hb5, hopid, by rw [hcnt, decodeOpcode_width, opcodeWidth_eq], by omega,
    ⟨decodeOperation_eq_noOp, ?_⟩, ⟨decodeOperation_eq_halt, ?_⟩, ⟨decodeOperation_eq_print, ?_⟩,
    ⟨decodeOperation_eq_loadImmediate, ?_⟩, ⟨decodeOperation_eq_multiply, ?_⟩, decodeOperation_eq_unknown_iff b⟩
  all_goals
    rintro rfl
    decide

end Sys2Proof
end

section
/-! SUPPORT. The fetch and the decoder agree: where the bytes at pc begin with an encoding that instruction is
fetched, and where they are too few the fetch reports address N (spec/20_memory.md R54, spec/40_cycle.md
R101 to R103). -/

namespace Sys2Proof.Machine

section Cells

theorem cellsFrom_length (m : Memory) (k a : Nat) : (cellsFrom m k a).length = k := by
  induction k generalizing a with
  | zero => rfl
  | succ k ih => simp [cellsFrom, ih]

theorem cellsFrom_add (m : Memory) (j k a : Nat) :
    cellsFrom m (j + k) a = cellsFrom m j a ++ cellsFrom m k (a + j) := by
  induction j generalizing a with
  | zero => simp [cellsFrom]
  | succ j ih => simp [cellsFrom, ih, Nat.add_right_comm j 1 k, Nat.add_assoc, Nat.add_comm 1 j]

/-- A row of cells cut in two at the end of its first part. -/
theorem cellsFrom_eq_append {m : Memory} {k a : Nat} {front back : List Byte}
    (h : cellsFrom m k a = front ++ back) :
    cellsFrom m front.length a = front ∧ cellsFrom m back.length (a + front.length) = back := by
  have hk : k = front.length + back.length := by rw [← cellsFrom_length m k a, h, List.length_append]
  rw [hk, cellsFrom_add] at h
  exact List.append_inj h (cellsFrom_length ..)

theorem cellsFrom_setCells {m : Memory} (a : Nat) (bytes : List Byte) (h : m.wf) :
    cellsFrom (setCells m a bytes) bytes.length a = bytes := by
  refine List.ext_getElem? fun j => ?_
  rw [cellsFrom_getElem?]
  by_cases hj : j < bytes.length
  · rw [if_pos hj, cell_setCells_inside m a bytes h j hj, List.getElem?_eq_getElem hj]
  · rw [if_neg hj, List.getElem?_eq_none (Nat.not_lt.mp hj)]

end Cells

section Fetch
variable {cfg : Config} {s : State} {i : Instr}

/-- Where the first `k` bytes from pc on, all inside memory, begin with an instruction's encoding, that
instruction stands at pc. -/
theorem fetched_of_cellsFrom {k : Nat} {rest : List Byte} (hwf : i.wellFormed = true)
    (hk : k ≤ cfg.memSize - s.pc.toNat) (h : cellsFrom s.mem k s.pc.toNat = encode i ++ rest) :
    Fetched cfg s i := by
  have hlen : k = instrWidth i + rest.length := by
    rw [← cellsFrom_length s.mem k s.pc.toNat, h, List.length_append, encode_length]
  obtain ⟨hwidth, -⟩ := instrWidth_bounds i
  obtain ⟨hbytes, -⟩ := cellsFrom_eq_append h
  rw [encode_length] at hbytes
  exact ⟨by omega, hwf, hbytes⟩

/-- The converse of `fetched_of_fetch`: the instruction that stands at pc is fetched. -/
theorem Fetched.fetch_eq (h : Fetched cfg s i) : fetch cfg s = .ok i := by
  have hfits := h.fits
  have hcell := h.cell_pc
  obtain ⟨hwidth, -⟩ := instrWidth_bounds i
  obtain ⟨j, hj, hfetched⟩ | ⟨e, -, herr⟩ := fetch_cases cfg s
  · have hop : opcodeOf j = opcodeOf i := by rw [← hfetched.cell_pc, hcell]
    have hsame : encode j = encode i := by rw [← hfetched.bytes, ← h.bytes, instrWidth, hop, instrWidth]
    rw [hj, encode_injective hfetched.wellFormed h.wellFormed hsame]
  · cases herr with
    | opcode hout => omega
    | unknown _ hop =>
      rw [hcell] at hop
      exact absurd hop (decodeOperation_opcodeOf i)
    | operandA _ hout hop _ | operandB _ hout hop _ =>
      rw [hcell, ← instrWidth] at hop
      omega

/-- Where the instruction of a defined opcode byte does not fit into memory, the fetch reports address N:
its operand bytes are read in order, and the first that is missing would stand there. -/
theorem fetch_of_truncated (hin : s.pc.toNat < cfg.memSize)
    (hdef : decodeOperation (cell s.mem s.pc.toNat) ≠ .unknown)
    (hshort : cfg.memSize < s.pc.toNat + opcodeWidth (cell s.mem s.pc.toNat)) :
    fetch cfg s = .error (.outOfBounds cfg.memSize) := by
  obtain ⟨i, -, hfetched⟩ | ⟨e, he, herr⟩ := fetch_cases cfg s
  · have hfits := hfetched.fits
    rw [hfetched.cell_pc, ← instrWidth] at hshort
    omega
  · rw [he]
    cases herr with
    | opcode hout => omega
    | unknown _ hop => exact absurd hop hdef
    | operandA _ hout | operandB _ hout =>
      congr 2
      omega

/-- The instruction that stands at pc is run. -/
theorem stepAt_of_fetched (henabled : s.enabled) (h : Fetched cfg s i) : stepAt cfg s = exec i s :=
  stepAt_of_fetch henabled h.fetch_eq

/-- The fatal error that stands for a decoding error at pc; `fetch_of_decodeFails` ties it to the fetch. -/
def errorOfDecode (cfg : Config) (s : State) : DecodeError → FatalError
  | .noOpcode => .outOfBounds cfg.memSize
  | .unknownOpcode opcode => .unknownInstruction opcode s.pc
  | .missingOperand _ => .outOfBounds cfg.memSize

theorem fetch_of_decodeFails {e : DecodeError} (hpc : s.pc.toNat ≤ cfg.memSize)
    (h : DecodeFails (cellsFrom s.mem (cfg.memSize - s.pc.toNat) s.pc.toNat) e) :
    fetch cfg s = .error (errorOfDecode cfg s e) := by
  have hlen := cellsFrom_length s.mem (cfg.memSize - s.pc.toNat) s.pc.toNat
  have hfirst := cellsFrom_getElem? s.mem (cfg.memSize - s.pc.toNat) s.pc.toNat 0
  generalize cellsFrom s.mem (cfg.memSize - s.pc.toNat) s.pc.toNat = bytes at h hlen hfirst
  cases h with
  | noOpcode =>
    have hend : s.pc.toNat = cfg.memSize := by simp only [List.length_nil] at hlen; omega
    rw [fetch_of_pc_ge hend.ge, hend, errorOfDecode]
  | unknownOpcode opcode tail hop =>
    simp only [List.length_cons] at hlen
    rw [if_pos (by omega)] at hfirst
    have hread : memRead cfg s.mem s.pc.toNat = .ok opcode :=
      (memRead_eq_ok_iff ..).mpr ⟨by omega, (Option.some.inj hfirst).symm⟩
    exact fetch_of_unknown hread hop
  | missingOperand opcode tail k hdef hshort =>
    rw [hlen] at hshort
    simp only [List.length_cons] at hlen
    rw [if_pos (by omega)] at hfirst
    have hcell : cell s.mem s.pc.toNat = opcode := (Option.some.inj hfirst).symm
    exact fetch_of_truncated (by omega) (by rwa [hcell]) (by rw [hcell]; omega)

end Fetch

/-! ### The placing of a table word -/

theorem tableBytes_length (nbits w : Nat) : (tableBytes nbits w).length = 3 := rfl

theorem withFetchWord_mem {s : State} (nbits w : Nat) (h : s.pc.toNat + 3 ≤ 64) :
    (s.withFetchWord nbits w).mem = setCells s.mem s.pc.toNat (tableBytes nbits w) := by
  have htake : (tableBytes nbits w).take (Config.reference.memSize - s.pc.toNat) = tableBytes nbits w :=
    List.take_of_length_le (by simp only [tableBytes_length, Config.reference]; omega)
  rw [State.withFetchWord, htake]

theorem decode_of_decodeTableWord {nbits w : Nat} {i : Instr} (h : decodeTableWord nbits w = some i) :
    ∃ rest, decode (tableBytes nbits w) = .ok (i, rest) := by
  unfold decodeTableWord at h
  split at h
  · rename_i j rest hdecode
    cases h
    exact ⟨rest, hdecode⟩
  · cases h

/-! ### The statements that tie the cycle to the decoder -/

/-- Settles O33: the bytes at pc begin with the encoding of what they decode to, so it is fetched and run. -/
theorem stepRunsDecodedInstruction : Obligations.StepRunsDecodedInstruction := by
  intro cfg s i rest henabled hdecode
  obtain ⟨hwf, hbytes⟩ := encode_of_decode hdecode
  exact ⟨hwf, stepAt_of_fetched henabled (fetched_of_cellsFrom hwf le_rfl hbytes.symm)⟩

/-- Settles O34: the fetch meets the error that matches the decoder's, and the cycle takes it. -/
theorem stepTakesDecodeErrors : Obligations.StepTakesDecodeErrors := by
  intro cfg s e henabled hpc hdecode
  have hfetch := fetch_of_decodeFails hpc (decodeFails_of_decode hdecode)
  rw [stepAt_of_fetch_error henabled hfetch]
  cases e <;> rfl

/-- Settles O52: the three placed bytes are read back from pc on, and begin with the encoding of what they
decode to. -/
theorem placedWordIsRun : Obligations.PlacedWordIsRun := by
  intro s nbits w i henabled hmem hfit hword
  obtain ⟨rest, hdecode⟩ := decode_of_decodeTableWord hword
  obtain ⟨hwf, hbytes⟩ := encode_of_decode hdecode
  have hplaced : cellsFrom (s.withFetchWord nbits w).mem 3 s.pc.toNat = encode i ++ rest := by
    rw [withFetchWord_mem nbits w hfit, hbytes]
    exact cellsFrom_setCells s.pc.toNat (tableBytes nbits w) hmem
  have hroom : 3 ≤ Config.reference.memSize - s.pc.toNat := by simp only [Config.reference]; omega
  exact stepAt_of_fetched (s := s.withFetchWord nbits w) henabled (fetched_of_cellsFrom hwf hroom hplaced)

end Sys2Proof.Machine
end

section
/-! SUPPORT. What a cycle keeps and how far it moves pc: the facts the invariant is assembled from
(spec/10_state.md R25, R29, R30, R36; spec/60_exceptions.md R161 to R163, R165). -/

namespace Sys2Proof.Machine

/-- The register indices an instruction presents (30_encoding.md R84). -/
def registerOperands : Instr → List Nat
  | .noOp => []
  | .halt => []
  | .print a => [a]
  | .loadImmediate a _ => [a]
  | .multiply a b => [a, b]

theorem registerOperand_lt_of_wellFormed {i : Instr} (h : i.wellFormed = true) :
    ∀ v ∈ registerOperands i, v < 256 := by
  cases i with
  | noOp | halt => nofun
  | print | loadImmediate | multiply =>
    simpa [registerOperands, Instr.wellFormed, fitsOperandByte_iff] using h

section Effect
variable {s t : State} {i : Instr}

theorem ExecCase.mem_eq (h : ExecCase s i t) : t.mem = s.mem := by
  cases h <;> rfl

/-- An effect keeps the latch, or takes one of its register indices that is out of range as an error. -/
theorem ExecCase.fault_kept_or_operand (h : ExecCase s i t) :
    t.fault = s.fault ∨ ∃ v ∈ registerOperands i, 8 ≤ v ∧ t.fault = some (.outOfBounds v) := by
  cases h with
  | noOp | halt | print | load | mul => exact .inl rfl
  | printBad v hv | loadBad v _ hv | mulBadA v _ hv =>
    exact .inr ⟨v, List.mem_cons_self .., hv, rfl⟩
  | mulBadB a v _ hv => exact .inr ⟨v, by simp [registerOperands], hv, rfl⟩

/-- With its register indices in range an instruction raises nothing. -/
theorem ExecCase.fault_kept (h : ExecCase s i t) (hvalid : ∀ v ∈ registerOperands i, v < 8) :
    t.fault = s.fault := by
  obtain hkept | ⟨v, hmem, hbad, -⟩ := h.fault_kept_or_operand
  · exact hkept
  · exact absurd (hvalid v hmem) (Nat.not_lt.mpr hbad)

/-- An effect that leaves `out` alone does the same whatever stands there. -/
theorem ExecCase.withOut_of_kept (h : ExecCase s i t) (hkept : t.out = s.out) (o : List Word) :
    ExecCase { s with out := o } i { t with out := o } := by
  cases h with
  | noOp => exact .noOp
  | halt => exact .halt
  | print a ha => simp at hkept
  | printBad a ha => exact .printBad a ha
  | load a b ha => exact .load a b ha
  | loadBad a b ha => exact .loadBad a b ha
  | mul a b ha hb => exact .mul a b ha hb
  | mulBadA a b ha => exact .mulBadA a b ha
  | mulBadB a b ha hb => exact .mulBadB a b ha hb

/-- What an effect appends to `out` does not depend on what stands there. -/
theorem ExecCase.withOut (h : ExecCase s i t) :
    ∃ emitted, t.out = s.out ++ emitted ∧
      ∀ o, ExecCase { s with out := o } i { t with out := o ++ emitted } := by
  obtain hkept | ⟨a, ha, rfl, rfl⟩ := h.out_kept_or_print
  · refine ⟨[], by rw [hkept, List.append_nil], fun o => ?_⟩
    rw [List.append_nil]
    exact h.withOut_of_kept hkept o
  · exact ⟨[s.regs[a]], rfl, fun _ => .print a ha⟩

end Effect

section Cycle
variable {cfg : Config} {s t : State}

theorem stepAt_next_of_enabled (cfg : Config) (h : s.enabled) : ∃ t, stepAt cfg s = .next t := by
  cases hfetch : fetch cfg s with
  | error e => exact ⟨_, stepAt_of_fetch_error h hfetch⟩
  | ok i =>
    obtain ⟨t, hexec, -⟩ := exec_eq i s
    exact ⟨t, by rw [stepAt_of_fetch h hfetch, hexec]⟩

theorem stepAt_mem (h : stepAt cfg s = .next t) : t.mem = s.mem := by
  obtain ⟨-, ⟨e, -, rfl⟩ | ⟨i, -, hcase⟩⟩ := stepAt_cases h
  · exact takeError_mem e s
  · exact hcase.mem_eq

/-- A cycle that completes has fetched an instruction, all of whose bytes lie inside memory. -/
theorem exists_fetched_of_completed (h : stepAt cfg s = .next t) (hdone : t.fault = none) :
    ∃ i, Fetched cfg s i := by
  obtain ⟨-, ⟨e, -, rfl⟩ | ⟨i, hfetched, -⟩⟩ := stepAt_cases h
  · cases hdone
  · exact ⟨i, hfetched⟩

/-- A completed cycle moves pc past the instruction at pc, without wrapping. -/
theorem stepAt_pc_toNat_of_completed (hwf : cfg.wf) (h : stepAt cfg s = .next t) (hdone : t.fault = none) :
    s.pc.toNat < cfg.memSize ∧ t.pc.toNat = s.pc.toNat + opcodeWidth (cell s.mem s.pc.toNat) ∧
      t.pc.toNat ≤ cfg.memSize ∧
      1 ≤ opcodeWidth (cell s.mem s.pc.toNat) ∧ opcodeWidth (cell s.mem s.pc.toNat) ≤ 3 := by
  obtain ⟨i, hfetched⟩ := exists_fetched_of_completed h hdone
  obtain ⟨hmin, hmax⟩ := instrWidth_bounds i
  obtain ⟨-, hsize⟩ := hwf
  have hfits := hfetched.fits
  have hpc := stepAt_pc_of_completed h hdone
  rw [hfetched.cell_pc, ← instrWidth] at hpc ⊢
  have hsum : t.pc.toNat = s.pc.toNat + instrWidth i := by
    rw [hpc]
    exact advance_pc_toNat (by omega)
  omega

theorem stepAt_pc_le (hwf : cfg.wf) (hpc : s.pc.toNat ≤ cfg.memSize) (h : stepAt cfg s = .next t) :
    t.pc.toNat ≤ cfg.memSize := by
  obtain hdone | ⟨e, rfl⟩ := stepAt_completes_or_takeError h
  · obtain ⟨-, -, hle, -⟩ := stepAt_pc_toNat_of_completed hwf h hdone
    exact hle
  · exact hpc

/-- With pc at most N, an address that a fetch finds outside memory is N. -/
theorem FetchError.errorFits {e : FatalError} (h : FetchError cfg s e) (hpc : s.pc.toNat ≤ cfg.memSize) :
    errorFits cfg (takeError e s) e := by
  cases h with
  | opcode hout => exact .inl (by omega)
  | unknown hin hop => exact ⟨rfl, hin, rfl, hop⟩
  | operandA hin hout => exact .inl (by omega)
  | operandB hin hout => exact .inl (by omega)

/-- An error that a cycle latches fits the state it ends in. -/
theorem stepAt_errorFits {e : FatalError} (hpc : s.pc.toNat ≤ cfg.memSize) (h : stepAt cfg s = .next t)
    (hfault : t.fault = some e) : errorFits cfg t e := by
  obtain ⟨⟨-, hnone⟩, ⟨e', herr, rfl⟩ | ⟨i, hfetched, hcase⟩⟩ := stepAt_cases h
  · rw [takeError_fault, Option.some.injEq] at hfault
    subst hfault
    exact herr.errorFits hpc
  · obtain hkept | ⟨v, hmem, hbad, hlatched⟩ := hcase.fault_kept_or_operand
    · rw [hkept, hnone] at hfault
      cases hfault
    · rw [hlatched, Option.some.injEq] at hfault
      subst hfault
      have hbyte := registerOperand_lt_of_wellFormed hfetched.wellFormed v hmem
      exact .inr ⟨hbad, by omega⟩

/-- Every cycle keeps the invariant. -/
theorem stepAt_keeps_inv (hwf : cfg.wf) (hinv : Inv cfg s) (h : stepAt cfg s = .next t) : Inv cfg t where
  memCanonical := by rw [stepAt_mem h]; exact hinv.memCanonical
  memInRange := by rw [stepAt_mem h]; exact hinv.memInRange
  pcInRange := stepAt_pc_le hwf hinv.pcInRange h
  haltedIsClean hhalted := (stepAt_running_or_fault_none h).resolve_left (by simp [hhalted])
  faultFits _ hfault := stepAt_errorFits hinv.pcInRange h hfault

/-- With nothing latched, RUNNING and pc 0, the invariant is about memory alone. -/
theorem inv_of_reset_mem {m : Memory} (hwf : m.wf) (hin : m.inRange cfg) :
    Inv cfg { State.reset with mem := m } where
  memCanonical := hwf
  memInRange := hin
  pcInRange := Nat.zero_le _
  haltedIsClean := nofun
  faultFits := nofun

end Cycle

/-! ### The statements about the invariant -/

theorem reference_wf : Config.reference.wf := by decide

/-- Settles O49: `stepAt_keeps_inv`, and `step` is the cycle of the reference machine. -/
theorem stepKeepsInvariant : Obligations.StepKeepsInvariant :=
  ⟨fun _ _ _ => stepAt_keeps_inv, fun _ _ => stepAt_keeps_inv reference_wf⟩

/-- Settles O50: the reset memory lists no cell. -/
theorem resetHasInvariant : Obligations.ResetHasInvariant :=
  fun cfg => have ⟨hwf, hin⟩ := reset_mem_wf
    inv_of_reset_mem hwf (hin cfg)

/-- Settles O51: a launch only loads memory, and the load keeps the canonical form and the range. -/
theorem launchHasInvariant : Obligations.LaunchHasInvariant := by
  intro cfg program t h
  obtain ⟨mem, hload, rfl⟩ := launch_eq_ok h
  obtain ⟨hkeepsWf, hkeepsRange⟩ := memLoad_keeps hload
  obtain ⟨hwf, hin⟩ := reset_mem_wf
  exact inv_of_reset_mem (hkeepsWf hwf) (hkeepsRange (hin cfg))

/-! ### The statements about the cycle -/

/-- Settles O36: an enabled cycle takes the fetch's error or runs an instruction, and a resting state's
condition is the stop. -/
theorem cycleIffEnabled : Obligations.CycleIffEnabled := by
  refine fun cfg s => ⟨stepAt_next_of_enabled cfg, fun e hfault => ?_, fun hhalt => ?_⟩
  · exact stepAt_of_resting cfg (by simp only [restReason, hfault])
  · exact stepAt_of_resting cfg (restReason_of_cleanHalt hhalt)

/-- Settles O37: a cycle that does not complete is a taken error. -/
theorem raiseChangesOnlyTheFaultLatch : Obligations.RaiseChangesOnlyTheFaultLatch := by
  intro cfg s t e h hfault
  obtain hdone | ⟨e', rfl⟩ := stepAt_completes_or_takeError h
  · rw [hdone] at hfault
    cases hfault
  · rw [takeError_fault, Option.some.injEq] at hfault
    rw [hfault, takeError]

/-- Settles O38: the completed instruction lies inside memory, so the advance past it does not wrap. -/
theorem completedCycleStaysInMemory : Obligations.CompletedCycleStaysInMemory := by
  intro cfg s t hwf h hdone
  obtain ⟨hin, hbounds⟩ := stepAt_pc_toNat_of_completed hwf h hdone
  exact ⟨cell s.mem s.pc.toNat, (memRead_eq_ok_iff ..).mpr ⟨hin, rfl⟩, hbounds⟩

/-- Settles O39: no cycle writes memory, so no run does. -/
theorem memoryIsConstant : Obligations.MemoryIsConstant :=
  ⟨fun _ _ _ => stepAt_mem, fun _ _ s => runFor_induction (P := fun u => u.mem = s.mem) rfl
    fun _ _ _ h hprev => (stepAt_mem h).trans hprev⟩

/-- Settles O40, by `stepAt_regs_changed`. -/
theorem registersChangeOnlyByTheTwoWriters : Obligations.RegistersChangeOnlyByTheTwoWriters := by
  intro cfg s t j hj h hne
  obtain ⟨-, hwriter⟩ := stepAt_regs_changed h hj hne
  exact hwriter

/-- Settles O43: the fetch does not look at `out`, and what an effect appends does not depend on it. -/
theorem outputIsNeverRead : Obligations.OutputIsNeverRead := by
  intro cfg s t h
  obtain ⟨henabled, -⟩ := stepAt_cases h
  have hsame : ∀ o, fetch cfg { s with out := o } = fetch cfg s := fun _ => rfl
  cases hfetch : fetch cfg s with
  | error e =>
    rw [stepAt_of_fetch_error henabled hfetch] at h
    cases h
    refine ⟨[], (List.append_nil _).symm, fun o => ?_⟩
    rw [List.append_nil]
    exact stepAt_of_fetch_error (s := { s with out := o }) henabled ((hsame o).trans hfetch)
  | ok i =>
    rw [stepAt_of_fetch henabled hfetch] at h
    obtain ⟨emitted, hout, hany⟩ := (exec_cases h).withOut
    refine ⟨emitted, hout, fun o => ?_⟩
    rw [stepAt_of_fetch (s := { s with out := o }) henabled ((hsame o).trans hfetch)]
    exact (hany o).exec_next

end Sys2Proof.Machine
end

section
/-! SUPPORT. The bound on a run: every completed cycle moves pc forward and none beyond N
(spec/40_cycle.md section 3, R109). -/

namespace Sys2Proof.Machine

section
variable {cfg : Config} {s : State}

/-- Where a run still goes on after `k` cycles, each of them has moved pc forward. -/
theorem runFor_pc_of_enabled (hwf : cfg.wf) (hpc : s.pc.toNat ≤ cfg.memSize) (k : Nat)
    (h : (runFor cfg k s).enabled) :
    s.pc.toNat + k ≤ (runFor cfg k s).pc.toNat ∧ (runFor cfg k s).pc.toNat ≤ cfg.memSize := by
  induction k with
  | zero => exact ⟨le_rfl, hpc⟩
  | succ k ih =>
    by_cases hprev : (runFor cfg k s).enabled
    · obtain ⟨hmoved, -⟩ := ih hprev
      obtain ⟨t, ht⟩ := stepAt_next_of_enabled cfg hprev
      rw [runFor_succ_of_next ht] at h ⊢
      obtain ⟨-, hdone⟩ := h
      obtain ⟨-, hadvance, hle, hwidth, -⟩ := stepAt_pc_toNat_of_completed hwf ht hdone
      omega
    · rw [runFor_succ_of_resting (stepAt_ne_next_of_not_enabled hprev)] at h
      exact absurd h hprev

/-- A cycle still enabled after N - pc cycles has pc = N and latches OutOfBounds(N). -/
theorem runFor_end_of_enabled (hwf : cfg.wf) (hpc : s.pc.toNat ≤ cfg.memSize)
    (h : (runFor cfg (cfg.memSize - s.pc.toNat) s).enabled) :
    runFor cfg (cfg.memSize - s.pc.toNat + 1) s =
      takeError (.outOfBounds cfg.memSize) (runFor cfg (cfg.memSize - s.pc.toNat) s) := by
  obtain ⟨hmoved, hle⟩ := runFor_pc_of_enabled hwf hpc _ h
  exact runFor_succ_of_next (stepAt_of_pc_eq h (by omega))

theorem takeError_not_enabled (e : FatalError) (s : State) : ¬ (takeError e s).enabled :=
  fun ⟨_, hnone⟩ => nomatch hnone

theorem runFor_end_not_enabled (hwf : cfg.wf) (hpc : s.pc.toNat ≤ cfg.memSize) :
    ¬ (runFor cfg (cfg.memSize - s.pc.toNat + 1) s).enabled := by
  by_cases h : (runFor cfg (cfg.memSize - s.pc.toNat) s).enabled
  · rw [runFor_end_of_enabled hwf hpc h]
    exact takeError_not_enabled _ _
  · rwa [runFor_succ_of_resting (stepAt_ne_next_of_not_enabled h)]

theorem stepAt_fault_of_not_enabled (cfg : Config) (h : ¬ s.enabled) : ∃ r, stepAt cfg s = .fault r := by
  cases hrest : restReason s with
  | none => exact absurd ((restReason_eq_none_iff s).mp hrest) h
  | some r => exact ⟨r, stepAt_of_resting cfg hrest⟩

/-- Where the reference machine rests after `k` cycles, the host's run stops at the next step. -/
theorem coreRun_fault_of_not_enabled {k : Nat} (h : ¬ (runFor Config.reference k s).enabled) :
    ∃ r, Host.Core.run Sys2Proof.core (k + 1) s = .fault r := by
  induction k generalizing s with
  | zero =>
    obtain ⟨r, hr⟩ := stepAt_fault_of_not_enabled Config.reference h
    exact ⟨r, coreRun_of_fault (M := Sys2Proof.core) hr⟩
  | succ k ih =>
    by_cases henabled : s.enabled
    · obtain ⟨t, ht⟩ := stepAt_next_of_enabled Config.reference henabled
      have hrun : runFor Config.reference (k + 1) s = runFor Config.reference k t := by simp only [runFor, ht]
      obtain ⟨r, hr⟩ := ih (hrun ▸ h)
      exact ⟨r, by rw [coreRun_of_next (M := Sys2Proof.core) (t := t) ht, hr]⟩
    · obtain ⟨r, hr⟩ := stepAt_fault_of_not_enabled Config.reference henabled
      exact ⟨r, coreRun_of_fault (M := Sys2Proof.core) hr⟩

end

/-- Settles O48: after N - pc cycles that all completed pc is N, the cycle there raises, and the host's run
then stops. -/
theorem everyRunEnds : Obligations.EveryRunEnds :=
  ⟨fun _ _ hwf hpc => ⟨runFor_end_of_enabled hwf hpc, runFor_end_not_enabled hwf hpc⟩,
    fun _ hpc => coreRun_fault_of_not_enabled (runFor_end_not_enabled reference_wf hpc)⟩

end Sys2Proof.Machine
end

section
/-! SUPPORT. The component interfaces: memory writes and loads, register writes and the ALU
(spec/20_memory.md R52, R53; spec/10_state.md R24, R38; spec/43_alu_multiply.md R140 to R143). -/

namespace Sys2Proof.Machine

section Memory
variable {cfg : Config} {m m' : Memory} {a start : Nat}

theorem memWrite_of_lt (m : Memory) (v : Byte) (h : a < cfg.memSize) :
    memWrite cfg m a v = .ok (setCell m a v) := if_pos h

theorem memWrite_of_ge (m : Memory) (v : Byte) (h : cfg.memSize ≤ a) :
    memWrite cfg m a v = .error (.outOfBounds a) := if_neg (Nat.not_lt.mpr h)

theorem memLoad_of_gt (m : Memory) {bytes : List Byte} (h : cfg.memSize < start + bytes.length) :
    memLoad cfg m bytes start = .error (.outOfBounds (max start cfg.memSize)) := if_pos h

/-- A checked read depends on the addressed cell alone. -/
theorem memRead_congr (h : cell m' a = cell m a) : memRead cfg m' a = memRead cfg m a := by
  rw [memRead, memRead, h]

end Memory

section Registers
variable {regs : RegFile} {i j : Nat}

theorem readReg_set_self (v : Word) (h : i < 8) : readReg (regs.set i v) i = .ok v := by
  rw [readReg_of_lt _ h, Vector.getElem_set_self]

theorem readReg_set_of_ne (v : Word) (h : i < 8) (hne : j ≠ i) : readReg (regs.set i v) j = readReg regs j := by
  obtain hj | hj := Nat.lt_or_ge j 8
  · rw [readReg_of_lt _ hj, readReg_of_lt _ hj, Vector.getElem_set_ne h hj hne.symm]
  · rw [readReg_of_ge _ hj, readReg_of_ge _ hj]

end Registers

theorem exists_aluFunction {op : AluOp} (h : op = .add ∨ op = .multiply) : ∃ f, aluFunction op = .ok f := by
  obtain rfl | rfl := h
  · exact ⟨aluAdd, rfl⟩
  · exact ⟨aluMultiply, rfl⟩

/-! ### The statements about the component interfaces and reset -/

/-- Settles O11: below N the write stores the one cell, at and above N the port refuses it. -/
theorem memWriteChangesOneCell : Obligations.MemWriteChangesOneCell := by
  refine fun cfg m a v hwf => ⟨fun hin => ?_, memWrite_of_ge m v⟩
  exact ⟨setCell m a v, memWrite_of_lt m v hin, (memRead_eq_ok_iff ..).mpr ⟨hin, cell_setCell_self m a v hwf⟩,
    fun a' hne => memRead_congr (cell_setCell_other m a a' v hne)⟩

/-- Settles O12: a load that fits stores its bytes from `start` on, and any other is refused as a whole. -/
theorem memLoadPlacesAllOrNothing : Obligations.MemLoadPlacesAllOrNothing := by
  refine fun cfg m bytes start hwf => ⟨fun hfit => ?_, memLoad_of_gt m⟩
  refine ⟨setCells m start bytes, memLoad_of_le m hfit, fun i hi => ?_, fun a hout => ?_⟩
  · exact (memRead_eq_ok_iff ..).mpr ⟨by omega, cell_setCells_inside m start bytes hwf i hi⟩
  · exact memRead_congr (cell_setCells_outside m start bytes a hout)

/-- Settles O14: the write narrows the value to a register's 8 bits. -/
theorem registerWriteIsChecked : Obligations.RegisterWriteIsChecked := by
  refine fun regs i v => ⟨fun hi => ?_, writeReg_of_ge regs v⟩
  exact ⟨regs.set i (BitVec.ofNat 8 v), BitVec.ofNat 8 v, writeReg_of_lt regs v hi, readReg_set_self _ hi,
    BitVec.toNat_ofNat v 8, fun j hne => readReg_set_of_ne _ hi hne⟩

/-- Settles O15: with both indices in range the ALU returns and writes the function's value. -/
theorem aluAddsAndMultipliesModulo256 : Obligations.AluAddsAndMultipliesModulo256 := by
  intro regs d s hd hs
  refine ⟨⟨_, aluApply_of_lt (op := .add) regs rfl hd hs, ?_⟩,
    ⟨_, aluApply_of_lt (op := .multiply) regs rfl hd hs, ?_⟩⟩
  · rw [ofNat_aluAdd, BitVec.toNat_ofNat]
  · rw [ofNat_aluMultiply, BitVec.toNat_ofNat]

/-- Settles O16: the tag is checked before any index, and an implemented one passes on to the destination
and then the operand. -/
theorem aluChecksTagThenRegisters : Obligations.AluChecksTagThenRegisters := by
  refine ⟨fun t d s regs => aluApply_other d s regs t, fun op d s regs hop => ?_⟩
  obtain ⟨f, hf⟩ := exists_aluFunction hop
  exact ⟨aluApply_bad_dest regs s hf, aluApply_bad_operand regs hf⟩

/-- Settles O6: the reset memory lists no cell, and every cell that is not listed reads as 0. -/
theorem resetStateTable : Obligations.ResetStateTable :=
  ⟨fun _ _ hin => (memRead_eq_ok_iff ..).mpr ⟨hin, rfl⟩, fun _ hi => reset_regs_getElem hi, rfl, rfl, rfl, rfl⟩

/-- Settles O45: the query's cells are those from pc on, cut off at N. -/
theorem traceViewShowsTheState : Obligations.TraceViewShowsTheState := by
  refine fun cfg k s => ⟨rfl, rfl, fun j => ?_⟩
  have hrange : j < min k (cfg.memSize - s.pc.toNat) ↔ j < k ∧ s.pc.toNat + j < cfg.memSize := by omega
  simp only [traceView, cellsFrom_getElem?, hrange]

end Sys2Proof.Machine
end

section
/-! SUPPORT. The instructions: results, frames and whole cycles (spec/41_system.md, spec/42_move_output.md,
spec/43_alu_multiply.md section 1). -/

namespace Sys2Proof.Machine

section Frame
variable {s t : State} {i : Instr}

theorem ExecCase.memRead_eq (h : ExecCase s i t) (cfg : Config) (addr : Nat) :
    memRead cfg t.mem addr = memRead cfg s.mem addr := by
  rw [h.mem_eq]

/-- An effect keeps every register that is not the destination of a register writer. -/
theorem ExecCase.readReg_kept (h : ExecCase s i t) {j : Nat} (hload : ∀ b, i ≠ .loadImmediate j b)
    (hmul : ∀ b, i ≠ .multiply j b) : readReg t.regs j = readReg s.regs j := by
  obtain hj | hj := Nat.lt_or_ge j 8
  · rw [readReg_of_lt _ hj, readReg_of_lt _ hj]
    refine congrArg Except.ok (Classical.byContradiction fun hne => ?_)
    obtain ⟨-, ⟨b, hb⟩ | ⟨b, hb⟩⟩ := h.regs_changed hj hne
    · exact hload b hb
    · exact hmul b hb
  · rw [readReg_of_ge _ hj, readReg_of_ge _ hj]

/-- An effect of another instruction than PRINT keeps `out`. -/
theorem ExecCase.out_kept (h : ExecCase s i t) (hprint : ∀ a, i ≠ .print a) : t.out = s.out := by
  obtain hkept | ⟨a, -, ha, -⟩ := h.out_kept_or_print
  · exact hkept
  · exact absurd ha (hprint a)

end Frame

/-! ### The statements about results and completion -/

/-- Settles O18, by the one case of each instruction's effect. -/
theorem systemInstructionsComplete : Obligations.SystemInstructionsComplete :=
  fun _ => ⟨ExecCase.noOp.exec_next, ExecCase.halt.exec_next⟩

/-- Settles O19, by the completing case of PRINT. -/
theorem printCompletes : Obligations.PrintCompletes :=
  fun _ a ha => (ExecCase.print a ha).exec_next

/-- Settles O20, by the completing case of LOAD_IMMEDIATE. -/
theorem loadImmediateCompletes : Obligations.LoadImmediateCompletes :=
  fun _ a b ha => (ExecCase.load a b ha).exec_next

/-- Settles O21, by the completing case of MULTIPLY: narrowing the product reduces it modulo 256. -/
theorem multiplyCompletes : Obligations.MultiplyCompletes :=
  fun _ a b ha hb => ⟨_, BitVec.toNat_ofNat _ 8, (ExecCase.mul a b ha hb).exec_next⟩

/-- Settles O22, by the raising cases of the three instructions. -/
theorem badRegisterIndexIsTaken : Obligations.BadRegisterIndexIsTaken :=
  fun _ => ⟨fun a ha => (ExecCase.printBad a ha).exec_next, fun a b ha => (ExecCase.loadBad a b ha).exec_next,
    fun a b ha => (ExecCase.mulBadA a b ha).exec_next, fun a b ha hb => (ExecCase.mulBadB a b ha hb).exec_next⟩

/-- Settles O23: both orders write the same product, each into its own first register. -/
theorem multiplyValueCommutes : Obligations.MultiplyValueCommutes := by
  intro s a b ha hb
  refine ⟨_, _, (ExecCase.mul a b ha hb).exec_next, (ExecCase.mul b a hb ha).exec_next, ?_, fun hne => ⟨?_, ?_⟩⟩
  · simp only [advance_regs, Vector.getElem_set_self, Nat.mul_comm]
  · exact Vector.getElem_set_ne ha hb hne
  · exact Vector.getElem_set_ne hb ha hne.symm

/-! ### The statements about frames -/

/-- Settles O24: only the first operand's register can change, and no index in range raises. -/
theorem registerWritersFrame : Obligations.RegisterWritersFrame := by
  refine ⟨fun s t a v h => ?_, fun s t a b h => ?_⟩
  · have hcase := exec_cases h
    exact ⟨fun j hne => hcase.readReg_kept (by simpa using hne.symm) (by simp), hcase.memRead_eq, hcase.run_eq,
      hcase.out_kept (by simp), fun ha => hcase.fault_kept (by simpa [registerOperands] using ha)⟩
  · have hcase := exec_cases h
    exact ⟨fun j hne => hcase.readReg_kept (by simp) (by simpa using hne.symm), hcase.memRead_eq, hcase.run_eq,
      hcase.out_kept (by simp), fun ha hb => hcase.fault_kept (by simpa [registerOperands] using ⟨ha, hb⟩)⟩

/-- Settles O25: none of the three writes a register or memory, and only PRINT has an index to raise on. -/
theorem nonWritersFrame : Obligations.NonWritersFrame := by
  refine ⟨fun s t h => ?_, fun s t h => ?_, fun s t a h => ?_⟩
  · have hcase := exec_cases h
    exact ⟨fun j => hcase.readReg_kept (by simp) (by simp), hcase.memRead_eq, hcase.run_eq,
      hcase.out_kept (by simp), hcase.fault_kept nofun⟩
  · have hcase := exec_cases h
    exact ⟨fun j => hcase.readReg_kept (by simp) (by simp), hcase.memRead_eq,
      hcase.out_kept (by simp), hcase.fault_kept nofun⟩
  · have hcase := exec_cases h
    exact ⟨fun j => hcase.readReg_kept (by simp) (by simp), hcase.memRead_eq, hcase.run_eq,
      fun ha => hcase.fault_kept (by simpa [registerOperands] using ha)⟩

/-! ### The statements about whole cycles -/

section Cycle
variable {cfg : Config} {s : State}

theorem fetchOperandB_of_lt (h : s.pc.toNat + 2 < cfg.memSize) :
    fetchOperandB cfg s = .ok (cell s.mem (s.pc.toNat + 2)) :=
  (memRead_eq_ok_iff ..).mpr ⟨h, rfl⟩

theorem fetch_loadImmediate (hread : memRead cfg s.mem s.pc.toNat = .ok 0x82#8)
    (h : s.pc.toNat + 2 < cfg.memSize) :
    fetch cfg s =
      .ok (.loadImmediate (cell s.mem (s.pc.toNat + 1)).toNat (cell s.mem (s.pc.toNat + 2))) := by
  have hop : decodeOperation 0x82#8 = .loadImmediate := by decide
  rw [fetch_of_memRead hread, hop, fetchOperands, fetchOperandA_of_lt (by omega), fetchOperandB_of_lt h]
  rfl

theorem fetch_multiply (hread : memRead cfg s.mem s.pc.toNat = .ok 0xA2#8)
    (h : s.pc.toNat + 2 < cfg.memSize) :
    fetch cfg s =
      .ok (.multiply (cell s.mem (s.pc.toNat + 1)).toNat (cell s.mem (s.pc.toNat + 2)).toNat) := by
  have hop : decodeOperation 0xA2#8 = .multiply := by decide
  rw [fetch_of_memRead hread, hop, fetchOperands, fetchOperandA_of_lt (by omega), fetchOperandB_of_lt h]
  rfl

/-- A cycle at a defined opcode byte of width 3 takes the address of its first operand byte that is missing. -/
theorem stepAt_missingOperand {opcode : Byte} (henabled : s.enabled)
    (hread : memRead cfg s.mem s.pc.toNat = .ok opcode) (hdef : decodeOperation opcode ≠ .unknown)
    (hwidth : opcodeWidth opcode = 3) :
    (cfg.memSize ≤ s.pc.toNat + 1 → stepAt cfg s = .next (takeError (.outOfBounds (s.pc.toNat + 1)) s)) ∧
    (s.pc.toNat + 1 < cfg.memSize → cfg.memSize ≤ s.pc.toNat + 2 →
      stepAt cfg s = .next (takeError (.outOfBounds (s.pc.toNat + 2)) s)) := by
  obtain ⟨hin, rfl⟩ := (memRead_eq_ok_iff ..).mp hread
  have htaken (hshort : cfg.memSize < s.pc.toNat + 3) :
      stepAt cfg s = .next (takeError (.outOfBounds cfg.memSize) s) :=
    stepAt_of_fetch_error henabled (fetch_of_truncated hin hdef (by rwa [hwidth]))
  refine ⟨fun hA => ?_, fun hA hB => ?_⟩
  · have hend : s.pc.toNat + 1 = cfg.memSize := by omega
    rw [hend]
    exact htaken (by omega)
  · have hend : s.pc.toNat + 2 = cfg.memSize := by omega
    rw [hend]
    exact htaken (by omega)

end Cycle

/-- Settles O29: an operand byte is cut off, or LOAD_IMMEDIATE is fetched and completes or takes its
index. -/
theorem loadImmediateCycle : Obligations.LoadImmediateCycle := by
  intro cfg s henabled hread a b
  obtain ⟨hmissingA, hmissingB⟩ := stepAt_missingOperand henabled hread (by decide) (by decide)
  split_ifs with hA hB ha
  · exact hmissingA hA
  · exact hmissingB (Nat.not_le.mp hA) hB
  · rw [stepAt_of_fetch henabled (fetch_loadImmediate hread (Nat.not_le.mp hB))]
    exact (ExecCase.load a b ha).exec_next
  · rw [stepAt_of_fetch henabled (fetch_loadImmediate hread (Nat.not_le.mp hB))]
    exact (ExecCase.loadBad a b (Nat.not_lt.mp ha)).exec_next

/-- Settles O30: an operand byte is cut off, or MULTIPLY is fetched and completes or takes the first of its
indices that is out of range. -/
theorem multiplyCycle : Obligations.MultiplyCycle := by
  intro cfg s henabled hread a b
  obtain ⟨hmissingA, hmissingB⟩ := stepAt_missingOperand henabled hread (by decide) (by decide)
  split_ifs with hA hB ha hb
  · exact hmissingA hA
  · exact hmissingB (Nat.not_le.mp hA) hB
  all_goals rw [stepAt_of_fetch henabled (fetch_multiply hread (Nat.not_le.mp hB))]
  · exact (ExecCase.mul a b ha hb).exec_next
  · exact (ExecCase.mulBadB a b ha (Nat.not_lt.mp hb)).exec_next
  · exact (ExecCase.mulBadA a b (Nat.not_lt.mp ha)).exec_next

section LoadThenPrint
variable {cfg : Config} {s : State} {a : Nat} {v : Word}

/-- A completing LOAD_IMMEDIATE's cycle, field by field. -/
theorem exists_stepAt_load (hwf : cfg.wf) (henabled : s.enabled) (h : Fetched cfg s (.loadImmediate a v))
    (ha : a < 8) :
    ∃ t, stepAt cfg s = .next t ∧ t.enabled ∧ t.mem = s.mem ∧ t.out = s.out ∧ readReg t.regs a = .ok v ∧
      t.pc.toNat = s.pc.toNat + 3 := by
  obtain ⟨-, hmax⟩ := hwf
  have hfits := h.fits
  rw [instrWidth_loadImmediate] at hfits
  have hstep := stepAt_of_fetched henabled h
  rw [(ExecCase.load a v ha).exec_next] at hstep
  exact ⟨_, hstep, henabled, rfl, rfl, readReg_set_self v ha,
    advance_pc_toNat (s := { s with regs := s.regs.set a v }) (Nat.lt_of_le_of_lt hfits (by omega))⟩

/-- The cycle of a PRINT of a register that reads as `v`, field by field. -/
theorem exists_stepAt_print (hwf : cfg.wf) (henabled : s.enabled) (h : Fetched cfg s (.print a)) (ha : a < 8)
    (hread : readReg s.regs a = .ok v) :
    ∃ t, stepAt cfg s = .next t ∧ t.out = s.out ++ [v] ∧ t.regs = s.regs ∧
      t.pc.toNat = s.pc.toNat + 2 := by
  obtain ⟨-, hmax⟩ := hwf
  have hfits := h.fits
  rw [instrWidth_print] at hfits
  rw [readReg_of_lt _ ha, Except.ok.injEq] at hread
  have hstep := stepAt_of_fetched henabled h
  rw [(ExecCase.print a ha).exec_next, hread] at hstep
  exact ⟨_, hstep, rfl, rfl, advance_pc_toNat (s := emit v s) (Nat.lt_of_le_of_lt hfits (by omega))⟩

end LoadThenPrint

/-- Settles O32: the five bytes are two encodings one after the other; the first cycle leaves the value in
the register and pc at the second, which emits it. -/
theorem loadThenPrintEmitsTheValue : Obligations.LoadThenPrintEmitsTheValue := by
  intro cfg s r v hwf henabled hr hfit hbytes
  have hsplit : cellsFrom s.mem 5 s.pc.toNat =
      encode (.loadImmediate r.toNat v) ++ encode (.print r.toNat) := by
    rw [hbytes]
    simp [encode, opcodeOf]
  obtain ⟨-, hsecond⟩ := cellsFrom_eq_append hsplit
  simp only [encode_length, instrWidth_loadImmediate] at hsecond
  have hload : Fetched cfg s (.loadImmediate r.toNat v) :=
    fetched_of_cellsFrom (fitsOperandByte_toNat r) (by omega) hsplit
  obtain ⟨t, ht, htEnabled, hmem, hout, hreg, hpc⟩ := exists_stepAt_load hwf henabled hload hr
  have hprint : Fetched cfg t (.print r.toNat) :=
    { fits := by rw [hpc, instrWidth_print]; omega
      wellFormed := fitsOperandByte_toNat r
      bytes := by rw [hmem, hpc]; exact hsecond }
  obtain ⟨u, hu, huOut, huRegs, huPc⟩ := exists_stepAt_print hwf htEnabled hprint hr hreg
  exact ⟨t, u, ht, hu, by rw [huOut, hout], by rw [huRegs, hreg], by omega⟩

end Sys2Proof.Machine
end
